-- ==== Sys2Proof/Word.lean ====
section
/-! DEFINITION. The plain data the units work on: the input ports of one evaluation, the three fields of a
floating-point value, the error conditions and the five classes. Every vector of the spec is identified with the
natural number it stands for (spec R9); that a number fits its port is checked where it enters (R64, log 5). -/

namespace Sys2Proof

/-- The values on the input ports of the wrapper CORE_TOP during one evaluation (R73): what the decoder reads.
`a` is `WMAX` bits wide and `infPayload` is `s - 1` bits wide; `Inputs.Fits` says so (log 5). -/
structure Inputs where
  /-- `op[1:0]`, the operation select (R72). -/
  op : BitVec 2
  /-- `a[WMAX-1:0]`, the operand bus (R73). -/
  a : Nat
  /-- `det_payload` (R27, R29). -/
  detPayload : Bool
  /-- `inf_payload[s-2:0]` (R27, R29). -/
  infPayload : Nat
deriving DecidableEq, Repr

/-- The three fields of a value of either format, most significant first (R12, R50, R53). -/
structure Fields where
  sign : Nat
  exp : Nat
  sig : Nat
deriving DecidableEq, Repr

/-- The error conditions of the source (R170). -/
inductive Condition where
  /-- A constructed field exceeds its width, or the sign is not 0 or 1: a programmer-error guard (R85, R175). -/
  | invalidArgument
  /-- The recoded value was not produced by this encoding scheme (R173). -/
  | invalidEncoding
  /-- A subnormal result would lose set low-order bits (R174). -/
  | lossyConversion
deriving DecidableEq, Repr

/-- The classification of a value: "derived, not stored" (R15, R52, R56). -/
inductive FloatClass where
  | zero
  | subnormal
  | normal
  | infinity
  | nan
deriving DecidableEq, Repr

/-- The three grades of recoded pattern (R60). -/
inductive Grade where
  /-- FN2REC produces it with `det_payload = 1`. -/
  | canonical
  /-- REC2FN converts it without error, but FN2REC does not produce it. -/
  | wellFormed
  /-- REC2FN raises an error condition on it (R61). -/
  | malformed
deriving DecidableEq, Repr

end Sys2Proof
end

