-- ==== Sys2Proof/Config.lean ====
section
/-! DEFINITION. What an instance fixes at elaboration (format descriptors and the wrapper's parameters, R6, R8, R73)
and the one free value of the model, which nothing can evaluate (R172, log 4). -/

namespace Sys2Proof

/-- The descriptor of an IEEE format IEEE(s, e) (R6). -/
structure IeeeFormat where
  /-- Significand width, including the implicit bit. -/
  s : Nat
  /-- IEEE exponent width. -/
  e : Nat
deriving DecidableEq, Repr

/-- The descriptor of a recoded format REC(s, E) (R6). -/
structure RecFormat where
  /-- Significand width, including the implicit bit. -/
  s : Nat
  /-- Recoded exponent width. -/
  E : Nat
deriving DecidableEq, Repr

/-- The elaboration-time parameters of `CORE_TOP #(s, e, sd, ed, STRICT_ZERO_TAG)` (R8, R73). -/
structure Params where
  s : Nat
  e : Nat
  sd : Nat
  ed : Nat
  /-- `STRICT_ZERO_TAG = 1` (R103). -/
  strictZeroTag : Bool
deriving DecidableEq, Repr

/-- The instance State.reset holds: `CORE_TOP #(24, 8, 53, 11, 1)`, the one of the spec's program P1.
DESIGN CHOICE (log 2): the spec leaves every parameter to the instance; every statement is made for every legal set. -/
def Config.resetParams : Params :=
  { s := 24, e := 8, sd := 53, ed := 11, strictZeroTag := true }

/-- The value of an output whose value the spec leaves unspecified (R172): draw number `draw`, `width` bits.
A FREE VALUE (log 4): it has no body, so no proof can rest on any value of it. -/
opaque Config.unspecifiedBits (draw width : Nat) : BitVec width

end Sys2Proof
end

