-- ==== Sys2Proof/Machine/Operands.lean ====
section
/-! DEFINITION. Operand assembly (R63): slicing a value into its fields and composing a value from fields, with the
checked composition `buildValue` (R85). Widths, tags and descriptor pairing of the two formats. -/

namespace Sys2Proof

/-- Total width `WI = e + s` of IEEE(s, e) (R6). -/
def IeeeFormat.width (f : IeeeFormat) : Nat := f.e + f.s

/-- Total width `WR = E + s` of REC(s, E) (R6). -/
def RecFormat.width (r : RecFormat) : Nat := r.E + r.s

/-- `IEEE(s, e).toRecodedFormat()`: REC(s, e + 1) (R86). -/
def IeeeFormat.toRecodedFormat (f : IeeeFormat) : RecFormat := { s := f.s, E := f.e + 1 }

/-- `REC(s, E).toIEEEFN()`: IEEE(s, E - 1) (R86). -/
def RecFormat.toIEEEFN (r : RecFormat) : IeeeFormat := { s := r.s, e := r.E - 1 }

/-- The three bounds on a legal parameter pair (R7; the third is the spec's derived bound, log 14). -/
abbrev IeeeFormat.Legal (f : IeeeFormat) : Prop := 2 ≤ f.s ∧ 3 ≤ f.e ∧ f.s ≤ 2 ^ (f.e - 2) + 3

/-- A recoded format is legal when its paired IEEE format is (R7, R86). -/
abbrev RecFormat.Legal (r : RecFormat) : Prop := r.toIEEEFN.Legal

/-- The format `(s, e)` of a wrapper instance (R73). -/
def Params.fmt (p : Params) : IeeeFormat := { s := p.s, e := p.e }

/-- The destination format `(sd, ed)` of a wrapper instance (R73). -/
def Params.dstFmt (p : Params) : IeeeFormat := { s := p.sd, e := p.ed }

/-- A parameter set is legal when both of its formats are (R7, R192). -/
abbrev Params.Legal (p : Params) : Prop := p.fmt.Legal ∧ p.dstFmt.Legal

/-- `WMAX = max(e + s + 1, ed + sd + 1)`, the width of the wrapper's buses (R73). -/
def Params.busWidth (p : Params) : Nat := max (p.e + p.s + 1) (p.ed + p.sd + 1)

/-- The values on the input ports fit the ports of the instance (R64, R73). -/
abbrev Inputs.Fits (w : Inputs) (p : Params) : Prop := w.a < 2 ^ p.busWidth ∧ w.infPayload < 2 ^ (p.s - 1)

/-- Field extraction for a format with exponent width `X` and significand width `s` (R63). -/
def fieldsOf (X s v : Nat) : Fields :=
  { sign := (v >>> (X + s - 1)) % 2
    exp := (v >>> (s - 1)) % 2 ^ X
    sig := v % 2 ^ (s - 1) }

/-- The fields of an IEEE value (R12, R50). -/
def IeeeFormat.fields (f : IeeeFormat) (v : Nat) : Fields := fieldsOf f.e f.s v

/-- The fields of a recoded value (R12, R53). -/
def RecFormat.fields (r : RecFormat) (v : Nat) : Fields := fieldsOf r.E r.s v

/-- `classifyTag`: the top three bits of a recoded exponent field (R54). -/
def RecFormat.tag (r : RecFormat) (exp : Nat) : Nat := exp >>> (r.E - 3)

/-- The non-tag bits of a recoded exponent field (R12, R53). -/
def RecFormat.low (r : RecFormat) (exp : Nat) : Nat := exp % 2 ^ (r.E - 3)

/-- Composition of a value from three fields, the inverse of `fieldsOf` (R63). -/
def concatFields (X s sign exp sig : Nat) : Nat :=
  (sign <<< (X + s - 1)) ||| (exp <<< (s - 1)) ||| sig

/-- `buildValue` (R85): composes the three fields, or fails with InvalidArgument; never truncates. -/
def buildValue (X s sign exp sig : Nat) : Except Condition Nat :=
  if sign < 2 ∧ exp < 2 ^ X ∧ sig < 2 ^ (s - 1) then .ok (concatFields X s sign exp sig)
  else .error .invalidArgument

end Sys2Proof
end

