-- ==== Sys2Proof/Machine/Formats.lean ====
section
/-! DEFINITION. The format primitives of 40_formats.md (R80 to R89), the thresholds of a recoded format (R58), the
named formats (R70), the classifications (R52, R56) and the grades of recoded pattern (R60, R61). -/

namespace Sys2Proof

/-! ### IEEE format -/

/-- All-ones exponent field (R80). -/
def IeeeFormat.isInfinityOrNaN (f : IeeeFormat) (exp : Nat) : Bool := exp == 2 ^ f.e - 1

/-- Zero exponent field (R81). -/
def IeeeFormat.isZeroOrSubnormal (_f : IeeeFormat) (exp : Nat) : Bool := exp == 0

/-- `buildValue` of the IEEE descriptor (R85). -/
def IeeeFormat.buildValue (f : IeeeFormat) (sign exp sig : Nat) : Except Condition Nat :=
  Sys2Proof.buildValue f.e f.s sign exp sig

/-- `IEEE.makeInfinity(sign)` (R82). -/
def IeeeFormat.makeInfinity (f : IeeeFormat) (sign : Nat) : Except Condition Nat :=
  f.buildValue sign (2 ^ f.e - 1) 0

/-- `IEEE.makeNaN(sign, payload)`: no quiet bit is forced in (R83). -/
def IeeeFormat.makeNaN (f : IeeeFormat) (sign payload : Nat) : Except Condition Nat :=
  f.buildValue sign (2 ^ f.e - 1) payload

/-- `IEEE.makeNaN(sign, quietBit)` with the payload absent: `sign ‖ 1^e ‖ q ‖ 1^(s-2)` (R84; log 17).
No operation uses it; the source's descriptor exposes it. -/
def IeeeFormat.makeDefaultNaN (f : IeeeFormat) (sign quietBit : Nat) : Except Condition Nat :=
  f.buildValue sign (2 ^ f.e - 1) ((quietBit <<< (f.s - 2)) ||| (2 ^ (f.s - 2) - 1))

/-- The class of an IEEE value (R52). -/
def IeeeFormat.classify (f : IeeeFormat) (v : Nat) : FloatClass :=
  let fl := f.fields v
  if f.isInfinityOrNaN fl.exp then (if fl.sig = 0 then .infinity else .nan)
  else if f.isZeroOrSubnormal fl.exp then (if fl.sig = 0 then .zero else .subnormal)
  else .normal

/-! ### Recoded format -/

/-- `K = 2^(E-2)` (R8). -/
def RecFormat.K (r : RecFormat) : Nat := 2 ^ (r.E - 2)

/-- `minNormalExponent = K + 2` (R58). -/
def RecFormat.minNormalExponent (r : RecFormat) : Nat := r.K + 2

/-- `minSubnormalExponent = minNormalExponent - s` (R58; positive for every legal format). -/
def RecFormat.minSubnormalExponent (r : RecFormat) : Nat := r.minNormalExponent - r.s

/-- `NormalBias(E) = 2^(E-1)` (R153; PRESUMED, log 11). -/
def RecFormat.normalBias (r : RecFormat) : Nat := 2 ^ (r.E - 1)

/-- `rebiasToIEEE(x) = x - K - 1`, "valid only when the value lies in the normal range" (R58, R87): outside it the
precondition fails, as `buildValue`'s does. -/
def RecFormat.rebiasToIEEE (r : RecFormat) (x : Nat) : Except Condition Nat :=
  if r.minNormalExponent ≤ x ∧ x ≤ 3 * r.K - 1 then .ok (x - r.K - 1) else .error .invalidArgument

/-- `buildValue` of the recoded descriptor (R85). -/
def RecFormat.buildValue (r : RecFormat) (sign exp sig : Nat) : Except Condition Nat :=
  Sys2Proof.buildValue r.E r.s sign exp sig

/-- `REC.makeInfinity(sign, payload)`: tag 6, `low = 0` (R88; log 8). -/
def RecFormat.makeInfinity (r : RecFormat) (sign payload : Nat) : Except Condition Nat :=
  r.buildValue sign (6 <<< (r.E - 3)) payload

/-- `REC.makeNaN(sign, quietBit, payload)`: tag 7, `low = 0`, the quiet bit or-ed into the top bit (R89). -/
def RecFormat.makeNaN (r : RecFormat) (sign quietBit payload : Nat) : Except Condition Nat :=
  r.buildValue sign (7 <<< (r.E - 3)) ((quietBit <<< (r.s - 2)) ||| payload)

/-- The class of a recoded value: by tag, refined by the threshold for tags 1 to 5 (R55, R56). -/
def RecFormat.classify (r : RecFormat) (v : Nat) : FloatClass :=
  let fl := r.fields v
  let tag := r.tag fl.exp
  if tag = 0 then .zero
  else if tag = 6 then .infinity
  else if tag = 7 then .nan
  else if fl.exp < r.minNormalExponent then .subnormal
  else .normal

/-- Tags 1 to 5: a magnitude with an implicit leading one (R55). -/
abbrev RecFormat.NormalTag (r : RecFormat) (exp : Nat) : Prop := 1 ≤ r.tag exp ∧ r.tag exp ≤ 5

/-- The patterns on which REC2FN raises InvalidEncoding (R61, R173). -/
abbrev RecFormat.InvalidPattern (r : RecFormat) (strict : Bool) (v : Nat) : Prop :=
  (r.tag (r.fields v).exp = 7 ∧ (r.fields v).sig = 0) ∨
  (r.NormalTag (r.fields v).exp ∧ (r.fields v).exp < r.minSubnormalExponent) ∨
  (strict = true ∧ r.tag (r.fields v).exp = 0 ∧ (r.fields v).sig ≠ 0)

/-- The patterns on which REC2FN raises LossyConversion (R61, R174). -/
abbrev RecFormat.LossyPattern (r : RecFormat) (v : Nat) : Prop :=
  r.NormalTag (r.fields v).exp ∧ r.minSubnormalExponent ≤ (r.fields v).exp ∧
  (r.fields v).exp < r.minNormalExponent ∧
  (2 ^ (r.s - 1) + (r.fields v).sig) % 2 ^ (r.minNormalExponent - (r.fields v).exp) ≠ 0

/-- The canonical patterns, listed as R60 lists them: zero, infinity, NaN, normal, subnormal. -/
abbrev RecFormat.Canonical (r : RecFormat) (v : Nat) : Prop :=
  ((r.fields v).exp = 0 ∧ (r.fields v).sig = 0) ∨
  ((r.fields v).exp = 6 * 2 ^ (r.E - 3) ∧ (r.fields v).sig = 0) ∨
  ((r.fields v).exp = 7 * 2 ^ (r.E - 3) ∧ (r.fields v).sig ≠ 0) ∨
  (r.K + 2 ≤ (r.fields v).exp ∧ (r.fields v).exp ≤ 3 * r.K - 1) ∨
  ((r.fields v).exp ≤ r.K + 1 ∧ r.K + 3 - r.s ≤ (r.fields v).exp ∧
    (r.fields v).sig % 2 ^ (r.K + 2 - (r.fields v).exp) = 0)

/-- The grade of a recoded pattern under a setting of STRICT_ZERO_TAG (R60, R61). -/
def RecFormat.grade (r : RecFormat) (strict : Bool) (v : Nat) : Grade :=
  if r.InvalidPattern strict v ∨ r.LossyPattern v then .malformed
  else if r.Canonical v then .canonical
  else .wellFormed

/-! ### Named formats (R70) -/

/-- `f16`, paired with `recf17`. PRESUMED (log 16): the split into 11 and 5 is not in the source (D12). -/
def IeeeFormat.f16 : IeeeFormat := { s := 11, e := 5 }
/-- `f32`, paired with `recf33`. -/
def IeeeFormat.f32 : IeeeFormat := { s := 24, e := 8 }
/-- `f64`, paired with `recf65`. -/
def IeeeFormat.f64 : IeeeFormat := { s := 53, e := 11 }
/-- `recf17` (R70). -/
def RecFormat.recf17 : RecFormat := { s := 11, E := 6 }
/-- `recf33` (R70). -/
def RecFormat.recf33 : RecFormat := { s := 24, E := 9 }
/-- `recf65` (R70). -/
def RecFormat.recf65 : RecFormat := { s := 53, E := 12 }

/-- The labels of the registry with the formats they name (R70). Looking one up is the host's affair (R5). -/
def namedFormats : List (String × IeeeFormat × String × RecFormat) :=
  [("f16", .f16, "recf17", .recf17), ("f32", .f32, "recf33", .recf33), ("f64", .f64, "recf65", .recf65)]

end Sys2Proof
end

