-- ==== Sys2Proof/Syntax.lean ====
section
/-! DEFINITION. The instructions: the evaluation of one unit instance (R71), written as R75 writes it, with the
instance's parameters and the values on its input ports. One constructor per row of the opcode table (R72). -/

namespace Sys2Proof

/-- An evaluation of one unit. "An instruction of this hardware is the evaluation of one unit; its format is the
unit's port list" (R71, log 1). -/
inductive Instr where
  /-- `REC2FN #(s, e, STRICT_ZERO_TAG)` on port `rec` (R28, R100). -/
  | rec2fn (fmt : IeeeFormat) (strict : Bool) (r : Nat)
  /-- `FN2REC #(s, e)` on ports `ieee`, `det_payload`, `inf_payload` (R29, R120). -/
  | fn2rec (fmt : IeeeFormat) (v : Nat) (det : Bool) (pay : Nat)
  /-- `CLZ #(W)` on port `x` (R30, R140). -/
  | clz (W : Nat) (x : Nat)
  /-- `REC2REC #(ss, Es, sd, Ed)` on port `a` (R31, R150). -/
  | rec2rec (src dst : RecFormat) (a : Nat)
deriving DecidableEq, Repr

end Sys2Proof
end

