-- ==== Sys2Proof/WellFormed.lean ====
section
/-! DEFINITION. Well-formed evaluations: the parameters are legal (R7) and every operand fits its port (R64). -/

namespace Sys2Proof

/-- The parameters of the unit are legal (R7; for CLZ `W >= 1`, R8, R140; log 14). -/
def Instr.legalParams : Instr → Bool
  | .rec2fn f _ _ => decide f.Legal
  | .fn2rec f _ _ _ => decide f.Legal
  | .clz W _ => decide (1 ≤ W)
  | .rec2rec a b _ => decide (a.Legal ∧ b.Legal)

/-- Every operand fits the port it is presented on (R28 to R31, R64). -/
def Instr.operandsFit : Instr → Bool
  | .rec2fn f _ r => decide (r < 2 ^ f.toRecodedFormat.width)
  | .fn2rec f v _ pay => decide (v < 2 ^ f.width ∧ pay < 2 ^ (f.s - 1))
  | .clz W x => decide (x < 2 ^ W)
  | .rec2rec a _ v => decide (v < 2 ^ a.width)

/-- The evaluation is well-formed: legal parameters and operands that fit. -/
def Instr.wellFormed (i : Instr) : Bool := i.legalParams && i.operandsFit

end Sys2Proof
end

