-- ==== Sys2Proof/Decode.lean ====
section
/-! DEFINITION. The wrapper's operation select (R72, R73): which unit an evaluation of `CORE_TOP` selects and the
slice of the operand bus it sees; the encoder the other way; and the reading of an opcode-table word. -/

namespace Sys2Proof

/-- Why an evaluation of the wrapper is turned away. -/
inductive DecodeError where
  /-- The instance's parameters violate R7: no unit is instantiated for them. -/
  | illegalParameters
  /-- A value is wider than its port: refused, never reduced (R64). -/
  | inputTooWide
deriving DecidableEq, Repr

/-- The unit that the operation code selects, on the slice of `a` that unit sees; bits of `a` above it are ignored
(R72, R73). All four codes are assigned (R74). -/
def selectUnit (p : Params) (w : Inputs) : Instr :=
  if w.op = 0#2 then .rec2fn p.fmt p.strictZeroTag (w.a % 2 ^ (p.e + p.s + 1))
  else if w.op = 1#2 then .fn2rec p.fmt (w.a % 2 ^ (p.e + p.s)) w.detPayload w.infPayload
  else if w.op = 2#2 then .clz (p.s - 1) (w.a % 2 ^ (p.s - 1))
  else .rec2rec p.fmt.toRecodedFormat p.dstFmt.toRecodedFormat (w.a % 2 ^ (p.e + p.s + 1))

/-- The decoder of `CORE_TOP #(p)`: total, rejecting an illegal instance (R7) and oversize values (R64) by name. -/
def decode (p : Params) (w : Inputs) : Except DecodeError Instr :=
  if p.Legal then
    if w.Fits p then .ok (selectUnit p w) else .error .inputTooWide
  else .error .illegalParameters

/-- The input-port values that select an evaluation; ports the unit does not have are driven to 0 (R72, R73). -/
def encode : Instr → Inputs
  | .rec2fn _ _ r => { op := 0#2, a := r, detPayload := false, infPayload := 0 }
  | .fn2rec _ v det pay => { op := 1#2, a := v, detPayload := det, infPayload := pay }
  | .clz _ x => { op := 2#2, a := x, detPayload := false, infPayload := 0 }
  | .rec2rec _ _ a => { op := 3#2, a := a, detPayload := false, infPayload := 0 }

/-- The evaluation is of one of the four units that `CORE_TOP #(p)` contains (R73). -/
def Instr.onInstance (p : Params) : Instr → Bool
  | .rec2fn f strict _ => decide (f = p.fmt ∧ strict = p.strictZeroTag)
  | .fn2rec f _ _ _ => decide (f = p.fmt)
  | .clz W _ => decide (W = p.s - 1)
  | .rec2rec a b _ => decide (a = p.fmt.toRecodedFormat ∧ b = p.dstFmt.toRecodedFormat)

/-- The input ports an opcode-table word stands for: `op` is its bits 1 and 0, every operand bit is 0.
DESIGN CHOICE (log 21): it is meant for the words that `decodeTableWord` accepts, those below 4; of a greater word, which R64
would refuse as too wide for the 2-bit port, it keeps bits 1 and 0 only, that is the word mod 4. -/
def Inputs.ofTableWord (w : Nat) : Inputs :=
  { op := BitVec.ofNat 2 w, a := 0, detPayload := false, infPayload := 0 }

/-- The evaluation that an opcode-table word selects on the instance State.reset holds. The table numbers two bits,
`op[1:0]`; a word with a higher bit set is no value of the 2-bit port and is refused, not reduced (R64, log 21). -/
def decodeTableWord (_nbits w : Nat) : Option Instr :=
  if w < 4 then (decode Config.resetParams (.ofTableWord w)).toOption else none

end Sys2Proof
end

