-- ==== Sys2Proof/Machine/Flags.lean ====
section
/-! DEFINITION. The 2-bit error code `err` of REC2FN (R171). The CORE stores no flag of any kind (R22): `err` is an
output of the present evaluation. -/

namespace Sys2Proof

/-- `err = 00`: no condition, the data output is valid (R171). -/
def errNone : BitVec 2 := 0#2

/-- The code a condition is reported with (R171; the numbers are the spec's decision D4, log 13).
InvalidArgument has no code: it is no run-time condition (R175). -/
def Condition.code : Condition → Option (BitVec 2)
  | .invalidArgument => none
  | .invalidEncoding => some 1#2
  | .lossyConversion => some 2#2

/-- What a consumer reads from `err` (R171); `11` is never produced and stands for nothing. -/
def conditionOfErr (err : BitVec 2) : Option Condition :=
  if err = 1#2 then some .invalidEncoding
  else if err = 2#2 then some .lossyConversion
  else none

end Sys2Proof
end

