-- ==== Sys2Proof/Machine/State.lean ====
section
/-! DEFINITION. The state: the spec gives the CORE none (R20 to R26, R33), so State holds what stands in its place,
the instance's parameters and the ports of the wrapper CORE_TOP (R73), and one counter of the model's own (log 4).
The reasons a step can stop. -/

namespace Sys2Proof.Machine

/-- One instance of `CORE_TOP` and the values on its ports (log 1, log 2). -/
structure State where
  /-- Elaboration-time parameters (R8, R73); no step changes them. -/
  params : Params
  /-- The values the caller drives on the input ports (R73); no step changes them. -/
  inputs : Inputs
  /-- The result bus `y` (R73); the output port of a stand-alone unit is its low bits (R28 to R31). -/
  y : Nat
  /-- The error code `err` (R171); a unit that has no `err` port gives 00 here (R73). -/
  err : BitVec 2
  /-- The MODEL's own: how many unspecified values have been drawn; indexes the free value (R172, log 4). -/
  draws : Nat
deriving DecidableEq, Repr

/-- Why the machine stops. -/
inductive Fault where
  /-- The InvalidArgument guard of `buildValue` or `rebiasToIEEE` failed (R85, R87, R175). Raised by `State.finish`
  for REC2FN and FN2REC; the spec shows it unreachable (R90). Safe: the machine stops where a guard says so (log 15). -/
  | invalidArgument
deriving DecidableEq, Repr

/-- Why an evaluation has no meaning. -/
inductive Refusal where
  /-- No meaning written yet; answered by `exec` alone. Safe. -/
  | notModelled (mnemonic : String)
  /-- The parameters violate R7: "no unit is instantiated for it and the spec gives it no meaning". Raised by `step` and
  by every meaning. Safe (log 14). -/
  | illegalParameters
  /-- A value is wider than its port: "refuse a number >= 2^width; it must not silently reduce it" (R64). Raised by `step`
  and by every meaning. Safe (log 5). -/
  | operandTooWide
deriving DecidableEq, Repr

/-- There is no reset (R33, R190): every value here is a DESIGN CHOICE (log 2, log 3, log 4). All ports are 0, and the
outputs are those that the inputs give. -/
def State.reset : State :=
  { params := Config.resetParams
    inputs := { op := 0#2, a := 0, detPayload := false, infPayload := 0 }
    y := 0
    err := 0#2
    draws := 0 }

end Sys2Proof.Machine
end

