-- ==== Sys2Proof/Machine/Ops.lean ====
section
/-! DEFINITION. The shared operations over State: what the caller does to an instance, delivering a result, raising
an error condition (the CORE's only exceptional event, R170, R172) and the checks before an evaluation (R7, R64). There
is no trap entry and no return from one (R179, R180). -/

namespace Sys2Proof.Machine

/-- The outcome of an evaluation. -/
abbrev Result := Host.Outcome State Fault Refusal

/-- HOST: drive the input ports for the coming evaluation (R20, R73). -/
def State.present (s : State) (w : Inputs) : State := { s with inputs := w }

/-- HOST: take an instance with other elaboration-time parameters (R8, R192). -/
def State.elaborate (s : State) (p : Params) : State := { s with params := p }

/-- Drive a result with no condition: `y <- v`, `err <- 0` (R73, R100). -/
def State.deliver (s : State) (v : Nat) : State := { s with y := v, err := errNone }

/-- How many bits of the result bus a raised condition leaves unspecified: the whole of `y` in the wrapper (R73), and
all of a stand-alone unit's own data output of `portWidth` bits (R172; log 4). -/
def State.unspecifiedWidth (s : State) (portWidth : Nat) : Nat := max portWidth s.params.busWidth

/-- Raise a condition with the given code: `err` carries the code, the data output is unspecified (a free value, not
the same on two evaluations), and "Nothing else happens" (R172). -/
def State.raise (s : State) (code : BitVec 2) (portWidth : Nat) : State :=
  { s with
    y := (Config.unspecifiedBits s.draws (s.unspecifiedWidth portWidth)).toNat
    err := code
    draws := s.draws + 1 }

/-- End an evaluation with what its unit gives: `ok(outputs)` or `err(condition)` (R11, R172, R175). -/
def State.finish (s : State) (portWidth : Nat) (r : Except Condition Nat) : Result :=
  match r with
  | .ok v => .next (s.deliver v)
  | .error c =>
    match c.code with
    | some code => .next (s.raise code portWidth)
    | none => .fault .invalidArgument

/-- Evaluate only a well-formed evaluation: refuse an illegal parameter set (R7) and a value wider than its port (R64). -/
def checked (i : Instr) (k : Result) : Result :=
  if i.legalParams then
    if i.operandsFit then k else .refused .operandTooWide
  else .refused .illegalParameters

end Sys2Proof.Machine
end

