-- ==== Sys2Proof/Machine/Clz.lean ====
section
/-! DEFINITION. CLZ, the parametrized leading-zero counter (43_clz.md, R140 to R144). -/

namespace Sys2Proof.Machine

/-- `clz_W(x)`: zero bits above the first set bit of a `W`-bit value, scanning from the top; `W` for `x = 0`
(R140, R143, log 10). -/
def clz : Nat → Nat → Nat
  | 0, _ => 0
  | W + 1, x => if x.testBit W then 0 else clz W x + 1

/-- Width of the port `n`: `ceil(log2(W + 1))` bits, which for `W >= 1` is the number of bits of `W` (R30, R142). -/
def clzOutputWidth (W : Nat) : Nat := Nat.log2 W + 1

/-- CLZ raises no condition (R140). -/
def execClz (W x : Nat) (s : State) : Result :=
  checked (.clz W x) (.next (s.deliver (clz W x)))

end Sys2Proof.Machine
end

