-- ==== Sys2Proof/Machine/Fn2rec.lean ====
section
/-! DEFINITION. FN2REC, the IEEE-to-recoded converter (42_fn2rec.md, R120 to R129). -/

namespace Sys2Proof.Machine

/-- The subnormal branch, step 3 (R122): normalise with a leading-zero count over the trailing significand (R141). -/
def fn2recSubnormal (fmt : IeeeFormat) (fl : Fields) : Except Condition Nat :=
  let rf := fmt.toRecodedFormat
  let n := clz (fmt.s - 1) fl.sig
  rf.buildValue fl.sign (rf.minNormalExponent - 1 - n) ((fl.sig <<< (n + 1)) % 2 ^ (fmt.s - 1))

/-- The function of FN2REC from its ports `ieee`, `det_payload`, `inf_payload` (R120): the branches in the order of the
source's steps 1 to 4. The infinity payload is a free input (R27, R125, log 8). -/
def fn2recUnit (fmt : IeeeFormat) (v : Nat) (det : Bool) (pay : Nat) : Except Condition Nat :=
  let rf := fmt.toRecodedFormat
  let fl := fmt.fields v
  if fmt.isInfinityOrNaN fl.exp then
    if fl.sig = 0 then rf.makeInfinity fl.sign (if det then 0 else pay)
    else rf.makeNaN fl.sign ((fl.sig >>> (fmt.s - 2)) % 2) fl.sig
  else if fmt.isZeroOrSubnormal fl.exp then
    if fl.sig = 0 then rf.buildValue fl.sign 0 0 else fn2recSubnormal fmt fl
  else rf.buildValue fl.sign ((fl.exp - 1) + rf.minNormalExponent) fl.sig

/-- FN2REC raises no condition (R126): the InvalidArgument guard of `finish` is never met (R90). -/
def execFn2rec (fmt : IeeeFormat) (v : Nat) (det : Bool) (pay : Nat) (s : State) : Result :=
  checked (.fn2rec fmt v det pay) (s.finish fmt.toRecodedFormat.width (fn2recUnit fmt v det pay))

end Sys2Proof.Machine
end

