-- ==== Sys2Proof/Machine/Rec2fn.lean ====
section
/-! DEFINITION. REC2FN, the recoded-to-IEEE converter (41_rec2fn.md, R100 to R114). -/

namespace Sys2Proof.Machine

/-- The subnormal branch, step 6 (R106, R107, R108): the band test, then the lossless test, then the right shift of
the significand with its implicit one. -/
def rec2fnSubnormal (fmt : IeeeFormat) (fl : Fields) : Except Condition Nat :=
  let rf := fmt.toRecodedFormat
  if fl.exp < rf.minSubnormalExponent then .error .invalidEncoding
  else
    let k := rf.minNormalExponent - fl.exp
    let m := fl.sig ||| (1 <<< (fmt.s - 1))
    if m % 2 ^ k ≠ 0 then .error .lossyConversion
    else fmt.buildValue fl.sign 0 (m >>> k)

/-- The function of REC2FN from its port `rec` (R100): the branches in the order of the source's steps 1 to 7. -/
def rec2fnUnit (fmt : IeeeFormat) (strict : Bool) (r : Nat) : Except Condition Nat :=
  let rf := fmt.toRecodedFormat
  let fl := rf.fields r
  let tag := rf.tag fl.exp
  if tag = 0 then
    if strict = true ∧ fl.sig ≠ 0 then .error .invalidEncoding else fmt.buildValue fl.sign 0 0
  else if tag = 6 then fmt.makeInfinity fl.sign
  else if tag = 7 then
    if fl.sig = 0 then .error .invalidEncoding else fmt.makeNaN fl.sign fl.sig
  else if fl.exp < rf.minNormalExponent then rec2fnSubnormal fmt fl
  else (rf.rebiasToIEEE fl.exp).bind fun x => fmt.buildValue fl.sign x fl.sig

/-- REC2FN reports InvalidEncoding and LossyConversion on `err` (R171, R172). -/
def execRec2fn (fmt : IeeeFormat) (strict : Bool) (r : Nat) (s : State) : Result :=
  checked (.rec2fn fmt strict r) (s.finish fmt.width (rec2fnUnit fmt strict r))

end Sys2Proof.Machine
end

