-- ==== Sys2Proof/Machine/Rec2rec.lean ====
section
/-! DEFINITION. REC2REC, the recoded-to-recoded widener and narrower (44_rec2rec.md, R150 to R159). -/

namespace Sys2Proof.Machine

/-- `exp + NormalBias(Ed) - NormalBias(Es)` over the integers, not yet reduced (R153, R154; log 11). -/
def rec2recSum (src dst : RecFormat) (exp : Nat) : Int :=
  (exp : Int) + (dst.normalBias : Int) - (src.normalBias : Int)

/-- `arith`: the sum reduced mod `2^Ed`; an out-of-range sum wraps silently (R154, log 12). -/
def rec2recArith (src dst : RecFormat) (exp : Nat) : Nat :=
  (rec2recSum src dst exp % ((2 ^ dst.E : Nat) : Int)).toNat

/-- The destination exponent: tags 0, 6 and 7 are preserved on top of the arithmetic's low bits (R155, log 12). -/
def rec2recExponent (src dst : RecFormat) (exp : Nat) : Nat :=
  let tag := src.tag exp
  let arith := rec2recArith src dst exp
  if tag = 0 ∨ 6 ≤ tag then (tag <<< (dst.E - 3)) ||| dst.low arith else arith

/-- The destination trailing significand: aligned at the most significant end; narrowing drops low bits (R152). -/
def rec2recSignificand (src dst : RecFormat) (sig : Nat) : Nat := (sig <<< dst.s) >>> src.s

/-- The general path of R150. -/
def rec2recGeneral (src dst : RecFormat) (a : Nat) : Nat :=
  let fl := src.fields a
  concatFields dst.E dst.s fl.sign (rec2recExponent src dst fl.exp) (rec2recSignificand src dst fl.sig)

/-- The function of REC2REC from its port `a` (R150); identical formats return the input unchanged (R151). -/
def rec2recUnit (src dst : RecFormat) (a : Nat) : Nat :=
  if src = dst then a else rec2recGeneral src dst a

/-- REC2REC checks nothing and raises no condition (R156). -/
def execRec2rec (src dst : RecFormat) (a : Nat) (s : State) : Result :=
  checked (.rec2rec src dst a) (.next (s.deliver (rec2recUnit src dst a)))

end Sys2Proof.Machine
end

