-- ==== Sys2Proof/Machine/Dispatch.lean ====
section
/-! DEFINITION. exec: one arm per constructor of Instr, each one direct call of its meaning. -/

namespace Sys2Proof.Machine

def exec (i : Instr) (s : State) : Host.Outcome State Fault Refusal :=
  match i with
  | .rec2fn fmt strict r => Sys2Proof.Machine.execRec2fn fmt strict r s
  | .fn2rec fmt v det pay => Sys2Proof.Machine.execFn2rec fmt v det pay s
  | .clz W x => Sys2Proof.Machine.execClz W x s
  | .rec2rec src dst a => Sys2Proof.Machine.execRec2rec src dst a s

end Sys2Proof.Machine
end

