-- ==== Sys2Proof/Machine/Step.lean ====
section
/-! DEFINITION. One step is one evaluation of the wrapper (R13, R73): select the unit by the values on the input ports
and evaluate it. Nothing is fetched and nothing advances (R21, R47; log 21). -/

namespace Sys2Proof.Machine

/-- One evaluation of `CORE_TOP` on the values its input ports hold (R73). -/
def step (s : State) : Host.Outcome State Fault Refusal :=
  match decode s.params s.inputs with
  | .ok i => exec i s
  | .error .illegalParameters => .refused .illegalParameters
  | .error .inputTooWide => .refused .operandTooWide

/-- The caller presents the evaluation that an opcode-table word stands for: `op` from the word, operand bits 0, so that
the next step evaluates exactly it (R72, R73, log 21).
DESIGN CHOICE (log 21): this holds for the words that `decodeTableWord` accepts, those below 4; a greater word, which
`decodeTableWord` refuses (R64), is presented reduced mod 4, since the 2-bit port `op` can hold no more. -/
def State.withFetchWord (s : State) (_nbits w : Nat) : State := s.present (.ofTableWord w)

end Sys2Proof.Machine
end

