-- ==== Sys2Proof/Machine/Denote.lean ====
section
/-! DEFINITION. What the numbers stand for (R59): the real (here rational) number a pattern denotes. No operation uses
it; statements about meaning do. PRESUMED (log 18): the IEEE value formula is general knowledge, not in the source. -/

namespace Sys2Proof

/-- The sign factor `(-1)^sign` (R59). -/
def signFactor (sign : Nat) : ℚ := (-1) ^ sign

/-- The IEEE bias `2^(e-1) - 1` (R59). -/
def IeeeFormat.bias (f : IeeeFormat) : ℤ := 2 ^ (f.e - 1) - 1

/-- The number an IEEE value denotes (R59); none for infinities and NaNs. -/
def IeeeFormat.denote (f : IeeeFormat) (v : Nat) : Option ℚ :=
  let fl := f.fields v
  match f.classify v with
  | .zero => some 0
  | .subnormal => some (signFactor fl.sign * 2 ^ (1 - f.bias) * ((fl.sig : ℚ) / 2 ^ (f.s - 1)))
  | .normal => some (signFactor fl.sign * 2 ^ ((fl.exp : ℤ) - f.bias) * (1 + (fl.sig : ℚ) / 2 ^ (f.s - 1)))
  | .infinity => none
  | .nan => none

/-- The number a recoded value denotes (R59): one formula for all of tags 1 to 5; tag 0 is zero (R55). -/
def RecFormat.denote (r : RecFormat) (v : Nat) : Option ℚ :=
  let fl := r.fields v
  match r.classify v with
  | .zero => some 0
  | .subnormal => some (signFactor fl.sign * 2 ^ ((fl.exp : ℤ) - 2 ^ (r.E - 1)) * (1 + (fl.sig : ℚ) / 2 ^ (r.s - 1)))
  | .normal => some (signFactor fl.sign * 2 ^ ((fl.exp : ℤ) - 2 ^ (r.E - 1)) * (1 + (fl.sig : ℚ) / 2 ^ (r.s - 1)))
  | .infinity => none
  | .nan => none

end Sys2Proof
end

