-- ==== Sys2Proof/Safety.lean ====
section
/-! DEFINITION. What counts as a safe run, in the terms statements use: a well-formed state, the reading of the result
that a consumer may make (R194) and the caller's obligation before REC2REC (R158, R195). -/

namespace Sys2Proof.Machine

/-- A well-formed state: a legal instance (R7), inputs and result inside their ports (R64, R73), and an error code that
can be produced (R171). -/
abbrev State.Wf (s : State) : Prop :=
  s.params.Legal ∧ s.inputs.Fits s.params ∧ s.y < 2 ^ s.params.busWidth ∧ s.err ≠ 3#2

/-- The data a consumer may use: it must test `err` and must not use the data when `err != 0` (R194). -/
def State.data (s : State) : Option Nat := if s.err = errNone then some s.y else none

/-- The caller's conditions for REC2REC to keep the number a value with tag 1 to 5 denotes (R158): (a) no set significand
bit is dropped, (b) the unreduced exponent sum stays inside the destination's tags 1 to 5. -/
abbrev Rec2recKeepsNumber (src dst : RecFormat) (a : Nat) : Prop :=
  (src.fields a).sig % 2 ^ (src.s - dst.s) = 0 ∧
  (2 : Int) ^ (dst.E - 3) ≤ rec2recSum src dst (src.fields a).exp ∧
  rec2recSum src dst (src.fields a).exp ≤ 3 * 2 ^ (dst.E - 2) - 1

end Sys2Proof.Machine
end

