-- ==== Sys2Proof/Certificates/Slice0/Obligations.lean ====
section
/-! DEFINITION. The statements for the provers. Each docstring names the rule of spec/ it formalises; where a clause
rests on a decision or derivation the spec marks as its own, the docstring names the row of 92_eei_decisions.md and the
assumption log's entry. The CORE has no memory and no registers (R20, R40), so a frame speaks of the ports and the
instance's parameters; a result statement whose conclusion writes the next state out IS its frame and its completion. -/

open Sys2Proof Sys2Proof.Machine

/-! ### The wrapper: operation select, encoding, refusals -/

/-- The four operation codes select the four units, each on its own slice of the bus, on every legal instance. The
numbering and the wrapper are the spec's decision D3 (log 13); the slices are R73's. -/
def Obligations.OperationCodesSelectUnits : Prop :=
  ∀ (p : Params) (w : Inputs), p.Legal → w.Fits p →
    (w.op = 0#2 → decode p w = .ok (.rec2fn { s := p.s, e := p.e } p.strictZeroTag (w.a % 2 ^ (p.e + p.s + 1)))) ∧
    (w.op = 1#2 → decode p w =
      .ok (.fn2rec { s := p.s, e := p.e } (w.a % 2 ^ (p.e + p.s)) w.detPayload w.infPayload)) ∧
    (w.op = 2#2 → decode p w = .ok (.clz (p.s - 1) (w.a % 2 ^ (p.s - 1)))) ∧
    (w.op = 3#2 → decode p w =
      .ok (.rec2rec { s := p.s, E := p.e + 1 } { s := p.sd, E := p.ed + 1 } (w.a % 2 ^ (p.e + p.s + 1))))

/-- A few opcode-table words, written out from R72, read as the instruction they stand for, operand bits 0, on the
instance State.reset holds (a model choice, log 2); a word with a bit above `op[1:0]` is refused (log 21). -/
def Obligations.OpcodeTableWordsDecode : Prop :=
  decodeTableWord 8 0b00 = some (.rec2fn { s := 24, e := 8 } true 0) ∧
  decodeTableWord 8 0b01 = some (.fn2rec { s := 24, e := 8 } 0 false 0) ∧
  decodeTableWord 8 0b10 = some (.clz 23 0) ∧
  decodeTableWord 8 0b11 = some (.rec2rec { s := 24, E := 9 } { s := 53, E := 12 } 0) ∧
  decodeTableWord 8 0b100 = none

/-- Decode and encode agree: on every legal instance, decoding the port values of any well-formed evaluation of one of
its units gives that evaluation back, every operand at every value its port admits (R72, R73). -/
def Obligations.DecodeInvertsEncode : Prop :=
  ∀ (p : Params) (i : Instr), p.Legal → i.wellFormed = true → i.onInstance p = true → decode p (encode i) = .ok i

/-- Whatever the ports hold, what the decoder accepts is a well-formed evaluation of a unit of the instance, and its
encoding decodes to it again: nothing is reduced or invented on the way (R64, R73). -/
def Obligations.DecodedEvaluationIsWellFormed : Prop :=
  ∀ (p : Params) (w : Inputs) (i : Instr), decode p w = .ok i →
    i.wellFormed = true ∧ i.onInstance p = true ∧ decode p (encode i) = .ok i

/-- A step evaluates the unit the input ports select, and nothing is added around it (R73; R21: nothing is fetched and
nothing advances). -/
def Obligations.StepRunsDecodedEvaluation : Prop :=
  ∀ (s : State) (i : Instr), decode s.params s.inputs = .ok i → step s = exec i s

/-- R73: on a legal instance with inputs that fit, every evaluation of the wrapper completes; with no condition the
bits of `y` above the selected unit's result are 0; only REC2FN can drive a non-zero `err`. -/
def Obligations.WrapperCompletesAndExtendsWithZeros : Prop :=
  ∀ s : State, s.params.Legal → s.inputs.Fits s.params →
    ∃ t, step s = .next t ∧
      (t.err = 0#2 →
        (s.inputs.op = 0#2 → t.y < 2 ^ (s.params.e + s.params.s)) ∧
        (s.inputs.op = 1#2 → t.y < 2 ^ (s.params.e + s.params.s + 1)) ∧
        (s.inputs.op = 2#2 → t.y < 2 ^ clzOutputWidth (s.params.s - 1)) ∧
        (s.inputs.op = 3#2 → t.y < 2 ^ (s.params.ed + s.params.sd + 1))) ∧
      (s.inputs.op ≠ 0#2 → t.err = 0#2)

/-- A value wider than its port is refused by name, never reduced: at each unit and at the wrapper (R64, whose refusal is
the spec's decision D23; log 5). -/
def Obligations.ValueWiderThanPortIsRefused : Prop :=
  ∀ s : State,
    (∀ (f : IeeeFormat) (strict : Bool) (r : Nat), f.Legal → 2 ^ (f.e + f.s + 1) ≤ r →
      exec (.rec2fn f strict r) s = .refused .operandTooWide) ∧
    (∀ (f : IeeeFormat) (v : Nat) (det : Bool) (pay : Nat), f.Legal → (2 ^ (f.e + f.s) ≤ v ∨ 2 ^ (f.s - 1) ≤ pay) →
      exec (.fn2rec f v det pay) s = .refused .operandTooWide) ∧
    (∀ W x : Nat, 1 ≤ W → 2 ^ W ≤ x → exec (.clz W x) s = .refused .operandTooWide) ∧
    (∀ (a b : RecFormat) (v : Nat), a.Legal → b.Legal → 2 ^ (a.E + a.s) ≤ v →
      exec (.rec2rec a b v) s = .refused .operandTooWide) ∧
    (s.params.Legal → ¬ s.inputs.Fits s.params → step s = .refused .operandTooWide)

/-- An illegal parameter set is refused by name, at each unit and at the wrapper: the bounds are R7's (`s >= 2`, `e >= 3`,
and the spec's derived `s <= 2^(e-2) + 3`, decisions D11, D24; log 14) and `W >= 1` (R8). -/
def Obligations.IllegalParametersAreRefused : Prop :=
  ∀ s : State,
    (∀ (f : IeeeFormat) (strict : Bool) (r : Nat), (f.s < 2 ∨ f.e < 3 ∨ 2 ^ (f.e - 2) + 3 < f.s) →
      exec (.rec2fn f strict r) s = .refused .illegalParameters) ∧
    (∀ (f : IeeeFormat) (v : Nat) (det : Bool) (pay : Nat), (f.s < 2 ∨ f.e < 3 ∨ 2 ^ (f.e - 2) + 3 < f.s) →
      exec (.fn2rec f v det pay) s = .refused .illegalParameters) ∧
    (∀ x : Nat, exec (.clz 0 x) s = .refused .illegalParameters) ∧
    (∀ (a b : RecFormat) (v : Nat), ¬ (a.Legal ∧ b.Legal) → exec (.rec2rec a b v) s = .refused .illegalParameters) ∧
    (¬ s.params.Legal → step s = .refused .illegalParameters)

/-! ### Whole-machine rules -/

/-- No evaluation faults: InvalidArgument is unreachable, for every evaluation, well-formed or not (derived in R90;
decision D20, log 15). -/
def Obligations.EvaluationNeverFaults : Prop :=
  ∀ (i : Instr) (s : State) (r : Fault), exec i s ≠ .fault r

/-- Every step keeps a well-formed state well-formed: a legal instance, inputs and result inside their ports, and an
error code other than 11 (R7, R64, R73, R171). -/
def Obligations.StepKeepsStateWellFormed : Prop :=
  ∀ s t : State, s.Wf → step s = .next t → t.Wf

/-- The state after reset is well-formed. The values are the model's choice (log 2, log 3): the spec has no reset. -/
def Obligations.ResetStateIsWellFormed : Prop := State.reset.Wf

/-- The outputs at reset are those of the inputs at reset: "an output is valid as soon as the inputs are" (R33). The
inputs themselves are the model's choice (log 3). -/
def Obligations.ResetOutputsMatchInputs : Prop := step State.reset = .next State.reset

/-- The frame of all four evaluations: the instance's parameters and the input ports are unchanged, and the model's draw
counter moves only when a condition is raised (R6: no operation changes the parameters; R20 to R26: there is no other
state; R172: "Nothing else happens"). -/
def Obligations.EvaluationFrame : Prop :=
  ∀ (i : Instr) (s t : State), exec i s = .next t →
    t.params = s.params ∧ t.inputs = s.inputs ∧ (t.err = 0#2 → t.draws = s.draws)

/-- R32: what an evaluation gives depends on the unit's parameters and inputs (which `i` holds) and on nothing else: from
any two states it completes alike, with the same `err`, and with the same data when `err = 0`. -/
def Obligations.OutputsDependOnPresentEvaluationOnly : Prop :=
  ∀ (i : Instr) (s s' t : State), exec i s = .next t →
    ∃ t', exec i s' = .next t' ∧ t'.err = t.err ∧ (t.err = 0#2 → t'.y = t.y)

/-- R43: evaluating twice with the same inputs changes nothing and gives the same outputs (the data output only when no
condition is raised, R32, R172). -/
def Obligations.EvaluationIsIdempotent : Prop :=
  ∀ s t : State, step s = .next t →
    ∃ u, step t = .next u ∧ u.params = t.params ∧ u.inputs = t.inputs ∧ u.err = t.err ∧ (t.err = 0#2 → u = t)

/-! ### REC2FN -/

/-- Tag 0: a signed zero whatever the `low` bits (decision D8, log 7), unless STRICT_ZERO_TAG = 1 and the trailing
significand is non-zero, which raises InvalidEncoding (decision D7, log 6). -/
def Obligations.Rec2fnZeroTag : Prop :=
  ∀ (f : IeeeFormat) (strict : Bool) (r : Nat) (s : State), f.Legal → r < 2 ^ (f.e + f.s + 1) →
    f.toRecodedFormat.tag (f.toRecodedFormat.fields r).exp = 0 →
    (¬ (strict = true ∧ (f.toRecodedFormat.fields r).sig ≠ 0) →
      exec (.rec2fn f strict r) s =
        .next { s with y := (f.toRecodedFormat.fields r).sign * 2 ^ (f.e + f.s - 1), err := 0#2 }) ∧
    (strict = true ∧ (f.toRecodedFormat.fields r).sig ≠ 0 →
      ∃ t, exec (.rec2fn f strict r) s = .next t ∧ t.err = 1#2)

/-- Tag 6 gives the infinity of the same sign, all-ones exponent, zero significand, and no error (R104). The trailing
significand of the input plays no part (its don't-care payload); that the `low` bits play none either is decision D8
(R62; log 7). -/
def Obligations.Rec2fnInfinityTag : Prop :=
  ∀ (f : IeeeFormat) (strict : Bool) (r : Nat) (s : State), f.Legal → r < 2 ^ (f.e + f.s + 1) →
    f.toRecodedFormat.tag (f.toRecodedFormat.fields r).exp = 6 →
      exec (.rec2fn f strict r) s =
        .next { s with
          y := (f.toRecodedFormat.fields r).sign * 2 ^ (f.e + f.s - 1) + (2 ^ f.e - 1) * 2 ^ (f.s - 1)
          err := 0#2 }

/-- Tag 7 with a non-zero trailing significand gives the NaN with the same sign and the whole significand copied, quiet bit
included; with a zero one it raises InvalidEncoding (R105). That the `low` bits play no part is decision D8 (log 7); that no
quiet bit is forced is the resolution of conflict C6 (R83; log 17). -/
def Obligations.Rec2fnNanTag : Prop :=
  ∀ (f : IeeeFormat) (strict : Bool) (r : Nat) (s : State), f.Legal → r < 2 ^ (f.e + f.s + 1) →
    f.toRecodedFormat.tag (f.toRecodedFormat.fields r).exp = 7 →
    ((f.toRecodedFormat.fields r).sig ≠ 0 →
      exec (.rec2fn f strict r) s =
        .next { s with
          y := (f.toRecodedFormat.fields r).sign * 2 ^ (f.e + f.s - 1) + (2 ^ f.e - 1) * 2 ^ (f.s - 1)
            + (f.toRecodedFormat.fields r).sig
          err := 0#2 }) ∧
    ((f.toRecodedFormat.fields r).sig = 0 → ∃ t, exec (.rec2fn f strict r) s = .next t ∧ t.err = 1#2)

/-- R108: in the subnormal band, when no set bit is shifted out, the result has a zero exponent field and the significand
`(2^(s-1) + sig) / 2^k` with `k = minNormalExponent - exp`; it is at least 1 and below `2^(s-1)`. -/
def Obligations.Rec2fnSubnormalBand : Prop :=
  ∀ (f : IeeeFormat) (strict : Bool) (r : Nat) (s : State) (fl : Fields) (k : Nat),
    f.Legal → r < 2 ^ (f.e + f.s + 1) → f.toRecodedFormat.fields r = fl → f.toRecodedFormat.NormalTag fl.exp →
    2 ^ (f.e - 1) + 2 - f.s ≤ fl.exp → fl.exp < 2 ^ (f.e - 1) + 2 → k = 2 ^ (f.e - 1) + 2 - fl.exp →
    (2 ^ (f.s - 1) + fl.sig) % 2 ^ k = 0 →
      exec (.rec2fn f strict r) s =
        .next { s with
          y := fl.sign * 2 ^ (f.e + f.s - 1) + (2 ^ (f.s - 1) + fl.sig) / 2 ^ k
          err := 0#2 } ∧
      1 ≤ (2 ^ (f.s - 1) + fl.sig) / 2 ^ k ∧ (2 ^ (f.s - 1) + fl.sig) / 2 ^ k < 2 ^ (f.s - 1)

/-- R109: tags 1 to 5 from `minNormalExponent` up give the normal with exponent field `exp - K - 1`, which is
`1 .. 2^e - 2`, and the significand unchanged; no error. -/
def Obligations.Rec2fnNormalRange : Prop :=
  ∀ (f : IeeeFormat) (strict : Bool) (r : Nat) (s : State) (fl : Fields),
    f.Legal → r < 2 ^ (f.e + f.s + 1) → f.toRecodedFormat.fields r = fl → f.toRecodedFormat.NormalTag fl.exp →
    2 ^ (f.e - 1) + 2 ≤ fl.exp →
      exec (.rec2fn f strict r) s =
        .next { s with
          y := fl.sign * 2 ^ (f.e + f.s - 1) + (fl.exp - 2 ^ (f.e - 1) - 1) * 2 ^ (f.s - 1) + fl.sig
          err := 0#2 } ∧
      1 ≤ fl.exp - 2 ^ (f.e - 1) - 1 ∧ fl.exp - 2 ^ (f.e - 1) - 1 ≤ 2 ^ f.e - 2

/-- REC2FN reports InvalidEncoding in exactly the cases R173 lists. That an exponent below the band is one of them even when
its shift would lose bits too is decision D6 (R106, R177; log 9); the third case, a strict zero tag, is decision D7 (R103;
log 6); that non-zero `low` bits under tags 0, 6 and 7 are no cause is decision D8 (log 7). -/
def Obligations.Rec2fnInvalidEncodingCauses : Prop :=
  ∀ (f : IeeeFormat) (strict : Bool) (r : Nat) (s : State) (fl : Fields) (tag : Nat),
    f.Legal → r < 2 ^ (f.e + f.s + 1) → f.toRecodedFormat.fields r = fl → f.toRecodedFormat.tag fl.exp = tag →
      ∃ t, exec (.rec2fn f strict r) s = .next t ∧
        (t.err = 1#2 ↔
          (tag = 7 ∧ fl.sig = 0) ∨
          (1 ≤ tag ∧ tag ≤ 5 ∧ fl.exp < f.toRecodedFormat.minSubnormalExponent) ∨
          (strict = true ∧ tag = 0 ∧ fl.sig ≠ 0))

/-- REC2FN reports LossyConversion in exactly the one case R174 lists, and REC2REC, which drops low-order bits when narrowing,
never does. That LossyConversion is not reported below the band, where bits would be lost too, is decision D6 (R106, R177;
log 9). -/
def Obligations.Rec2fnLossyConversionCause : Prop :=
  (∀ (f : IeeeFormat) (strict : Bool) (r : Nat) (s : State) (fl : Fields) (tag : Nat),
    f.Legal → r < 2 ^ (f.e + f.s + 1) → f.toRecodedFormat.fields r = fl → f.toRecodedFormat.tag fl.exp = tag →
      ∃ t, exec (.rec2fn f strict r) s = .next t ∧
        (t.err = 2#2 ↔
          1 ≤ tag ∧ tag ≤ 5 ∧ f.toRecodedFormat.minSubnormalExponent ≤ fl.exp ∧
          fl.exp < f.toRecodedFormat.minNormalExponent ∧
          (2 ^ (f.s - 1) + fl.sig) % 2 ^ (f.toRecodedFormat.minNormalExponent - fl.exp) ≠ 0)) ∧
  (∀ (a b : RecFormat) (v : Nat) (s t : State), exec (.rec2rec a b v) s = .next t → t.err ≠ 2#2)

/-- What raising does: the code on `err`, the data output unspecified (a draw of the free value over all of `y`, log 4),
and nothing else. Its premise is that REC2FN raised; the form of the draw is the model's (decision D5). -/
def Obligations.RaisedConditionLeavesDataFree : Prop :=
  ∀ (f : IeeeFormat) (strict : Bool) (r : Nat) (s t : State), exec (.rec2fn f strict r) s = .next t → t.err ≠ 0#2 →
    (t.err = 1#2 ∨ t.err = 2#2) ∧
    t = { s with
      y := (Config.unspecifiedBits s.draws (max (f.e + f.s) s.params.busWidth)).toNat
      err := t.err
      draws := s.draws + 1 }

/-- Below the band InvalidEncoding is reported even though the shift would lose bits too (decision D6, log 9); the lowest
exponent of the band always raises LossyConversion (derived in R107). -/
def Obligations.Rec2fnBandTestComesFirst : Prop :=
  ∀ (f : IeeeFormat) (strict : Bool) (r : Nat) (s : State) (fl : Fields),
    f.Legal → r < 2 ^ (f.e + f.s + 1) → f.toRecodedFormat.fields r = fl → f.toRecodedFormat.NormalTag fl.exp →
      (fl.exp < 2 ^ (f.e - 1) + 2 - f.s → ∃ t, exec (.rec2fn f strict r) s = .next t ∧ t.err = 1#2) ∧
      (fl.exp = 2 ^ (f.e - 1) + 2 - f.s → ∃ t, exec (.rec2fn f strict r) s = .next t ∧ t.err = 2#2)

/-- R110: on every path that does not raise, the sign bit of the result is that of the input; flipping the sign bit
changes neither whether a condition is raised nor which. -/
def Obligations.Rec2fnKeepsSign : Prop :=
  ∀ (f : IeeeFormat) (strict : Bool) (r : Nat) (s : State), f.Legal → r < 2 ^ (f.e + f.s + 1) →
    ∃ t u, exec (.rec2fn f strict r) s = .next t ∧
      exec (.rec2fn f strict (r ^^^ 2 ^ (f.e + f.s))) s = .next u ∧
      u.err = t.err ∧
      (t.err = 0#2 → t.y.testBit (f.e + f.s - 1) = r.testBit (f.e + f.s)) ∧
      (t.err = 0#2 → u.y = t.y ^^^ 2 ^ (f.e + f.s - 1))

/-- Exactly one of three outcomes for every pattern, and `err = 0` exactly on the patterns that are not malformed (R60,
R61, R111; the priority is decision D6, log 9). -/
def Obligations.Rec2fnAcceptsExactlyWellFormed : Prop :=
  ∀ (f : IeeeFormat) (strict : Bool) (r : Nat) (s : State), f.Legal → r < 2 ^ (f.e + f.s + 1) →
    ∃ t, exec (.rec2fn f strict r) s = .next t ∧
      ((t.err = 0#2 ∧ t.y < 2 ^ (f.e + f.s)) ∨ t.err = 1#2 ∨ t.err = 2#2) ∧
      (t.err = 0#2 ↔ f.toRecodedFormat.grade strict r ≠ .malformed)

/-- The don't-care bits of R112 (D8, log 7): two inputs of one sign and tag that agree on the bits REC2FN reads give the
same code and, with no condition, the same value. -/
def Obligations.Rec2fnIgnoresDontCareBits : Prop :=
  ∀ (f : IeeeFormat) (strict : Bool) (r r' : Nat) (s : State) (fl fl' : Fields) (tag : Nat),
    f.Legal → r < 2 ^ (f.e + f.s + 1) → r' < 2 ^ (f.e + f.s + 1) →
    f.toRecodedFormat.fields r = fl → f.toRecodedFormat.fields r' = fl' →
    f.toRecodedFormat.tag fl.exp = tag → f.toRecodedFormat.tag fl'.exp = tag → fl.sign = fl'.sign →
    ((tag = 0 ∧ (strict = true → fl.sig = fl'.sig)) ∨ tag = 6 ∨ (tag = 7 ∧ fl.sig = fl'.sig)) →
      ∃ t t', exec (.rec2fn f strict r) s = .next t ∧ exec (.rec2fn f strict r') s = .next t' ∧
        t'.err = t.err ∧ (t.err = 0#2 → t'.y = t.y)

/-- Under tags 1 to 5 no bit is lost: two such inputs that convert to the same IEEE value are equal (R112). -/
def Obligations.Rec2fnInjectiveOnNormalTags : Prop :=
  ∀ (f : IeeeFormat) (strict : Bool) (r r' : Nat) (s t t' : State), f.Legal →
    f.toRecodedFormat.NormalTag (f.toRecodedFormat.fields r).exp →
    f.toRecodedFormat.NormalTag (f.toRecodedFormat.fields r').exp →
    exec (.rec2fn f strict r) s = .next t → exec (.rec2fn f strict r') s = .next t' →
    t.err = 0#2 → t'.err = 0#2 → t.y = t'.y → r = r'

/-! ### FN2REC -/

/-- All-ones exponent: an infinity gets tag 6, zero `low` bits (decision D10) and the payload in the trailing significand,
zero or the port's value (decision D9, log 8); a NaN gets tag 7, zero `low` bits and its significand unchanged (R121). -/
def Obligations.Fn2recSpecialValues : Prop :=
  ∀ (f : IeeeFormat) (v : Nat) (det : Bool) (pay : Nat) (s : State) (fl : Fields),
    f.Legal → v < 2 ^ (f.e + f.s) → pay < 2 ^ (f.s - 1) → f.fields v = fl → fl.exp = 2 ^ f.e - 1 →
    (fl.sig = 0 →
      exec (.fn2rec f v det pay) s =
        .next { s with
          y := fl.sign * 2 ^ (f.e + f.s) + 6 * 2 ^ (f.e - 2) * 2 ^ (f.s - 1) + (if det then 0 else pay)
          err := 0#2 }) ∧
    (fl.sig ≠ 0 →
      exec (.fn2rec f v det pay) s =
        .next { s with
          y := fl.sign * 2 ^ (f.e + f.s) + 7 * 2 ^ (f.e - 2) * 2 ^ (f.s - 1) + fl.sig
          err := 0#2 })

/-- R122: a subnormal whose top set significand bit is bit `s - 2 - n` gets the exponent `K + 1 - n` and the significand
`(sig << (n+1)) mod 2^(s-1)`; its tag is 1 or 2, the exponent is below `minNormalExponent`, the low `n + 1` significand
bits are 0, and no bit of the input's significand is lost. -/
def Obligations.Fn2recSubnormal : Prop :=
  ∀ (f : IeeeFormat) (v : Nat) (det : Bool) (pay : Nat) (s : State) (fl : Fields) (n rexp rsig : Nat),
    f.Legal → v < 2 ^ (f.e + f.s) → pay < 2 ^ (f.s - 1) → f.fields v = fl → fl.exp = 0 →
    n ≤ f.s - 2 → 2 ^ (f.s - 2 - n) ≤ fl.sig → fl.sig < 2 ^ (f.s - 1 - n) →
    rexp = 2 ^ (f.e - 1) + 1 - n → rsig = fl.sig * 2 ^ (n + 1) % 2 ^ (f.s - 1) →
      exec (.fn2rec f v det pay) s =
        .next { s with y := fl.sign * 2 ^ (f.e + f.s) + rexp * 2 ^ (f.s - 1) + rsig, err := 0#2 } ∧
      (f.toRecodedFormat.tag rexp = 1 ∨ f.toRecodedFormat.tag rexp = 2) ∧
      rexp < f.toRecodedFormat.minNormalExponent ∧ 2 ^ (f.e - 1) + 3 - f.s ≤ rexp ∧
      rsig % 2 ^ (n + 1) = 0 ∧ 2 ^ (f.s - 1) + rsig = fl.sig * 2 ^ (n + 1)

/-- R123: a zero gives `sign << (WR-1)`, the whole exponent field and the significand zero; the result passes REC2FN under
either value of STRICT_ZERO_TAG. -/
def Obligations.Fn2recZero : Prop :=
  ∀ (f : IeeeFormat) (v : Nat) (det : Bool) (pay : Nat) (s : State),
    f.Legal → v < 2 ^ (f.e + f.s) → pay < 2 ^ (f.s - 1) → (f.fields v).exp = 0 → (f.fields v).sig = 0 →
      exec (.fn2rec f v det pay) s = .next { s with y := (f.fields v).sign * 2 ^ (f.e + f.s), err := 0#2 } ∧
      ∀ strict, ∃ t, exec (.rec2fn f strict ((f.fields v).sign * 2 ^ (f.e + f.s))) s = .next t ∧ t.err = 0#2

/-- R124: a normal gets the exponent `exp + K + 1`, which is `K + 2 .. 3K - 1` with a tag of 2 to 5, and its significand
unchanged. -/
def Obligations.Fn2recNormal : Prop :=
  ∀ (f : IeeeFormat) (v : Nat) (det : Bool) (pay : Nat) (s : State) (fl : Fields) (rexp : Nat),
    f.Legal → v < 2 ^ (f.e + f.s) → pay < 2 ^ (f.s - 1) → f.fields v = fl → 1 ≤ fl.exp → fl.exp ≤ 2 ^ f.e - 2 →
    rexp = fl.exp + 2 ^ (f.e - 1) + 1 →
      exec (.fn2rec f v det pay) s =
        .next { s with y := fl.sign * 2 ^ (f.e + f.s) + rexp * 2 ^ (f.s - 1) + fl.sig, err := 0#2 } ∧
      2 ^ (f.e - 1) + 2 ≤ rexp ∧ rexp ≤ 3 * 2 ^ (f.e - 1) - 1 ∧
      2 ≤ f.toRecodedFormat.tag rexp ∧ f.toRecodedFormat.tag rexp ≤ 5

/-- R126: FN2REC raises no condition: every one of the `2^WI` patterns, with any payload, gives a recoded value. -/
def Obligations.Fn2recNeverRaises : Prop :=
  ∀ (f : IeeeFormat) (v : Nat) (det : Bool) (pay : Nat) (s : State),
    f.Legal → v < 2 ^ (f.e + f.s) → pay < 2 ^ (f.s - 1) →
      ∃ y, y < 2 ^ (f.e + f.s + 1) ∧ exec (.fn2rec f v det pay) s = .next { s with y := y, err := 0#2 }

/-- R127, R157: the sign bit of the result is the sign bit of the input, for every input of FN2REC and of REC2REC. -/
def Obligations.SignBitKeptByFn2recAndRec2rec : Prop :=
  (∀ (f : IeeeFormat) (v : Nat) (det : Bool) (pay : Nat) (s : State),
    f.Legal → v < 2 ^ (f.e + f.s) → pay < 2 ^ (f.s - 1) →
      ∃ t, exec (.fn2rec f v det pay) s = .next t ∧ t.y.testBit (f.e + f.s) = v.testBit (f.e + f.s - 1)) ∧
  (∀ (a b : RecFormat) (v : Nat) (s : State), a.Legal → b.Legal → v < 2 ^ (a.E + a.s) →
      ∃ t, exec (.rec2rec a b v) s = .next t ∧ t.y.testBit (b.E + b.s - 1) = v.testBit (a.E + a.s - 1))

/-- With `det_payload = 1` the outputs of FN2REC are exactly the canonical patterns of R60, and distinct IEEE values give
distinct recoded values (derived in R128; zero `low` bits are decision D10, log 8). -/
def Obligations.Fn2recImageIsCanonicalPatterns : Prop :=
  ∀ (f : IeeeFormat) (pay : Nat) (s : State), f.Legal → pay < 2 ^ (f.s - 1) →
    (∀ r, r < 2 ^ (f.e + f.s + 1) →
      (f.toRecodedFormat.Canonical r ↔
        ∃ v, v < 2 ^ (f.e + f.s) ∧ exec (.fn2rec f v true pay) s = .next { s with y := r, err := 0#2 })) ∧
    (∀ v v' t t', exec (.fn2rec f v true pay) s = .next t → exec (.fn2rec f v' true pay) s = .next t' →
      t.y = t'.y → v = v')

/-- The payload ports matter for an infinity only, and never for what REC2FN makes of the result (R27, R125; the payload
port is decision D9, log 8). -/
def Obligations.PayloadMattersForInfinityOnly : Prop :=
  ∀ (f : IeeeFormat) (v : Nat) (det det' strict : Bool) (pay pay' : Nat) (s : State),
    f.Legal → v < 2 ^ (f.e + f.s) → pay < 2 ^ (f.s - 1) → pay' < 2 ^ (f.s - 1) →
      ∃ t t' u u', exec (.fn2rec f v det pay) s = .next t ∧ exec (.fn2rec f v det' pay') s = .next t' ∧
        (f.classify v ≠ .infinity → t'.y = t.y) ∧
        exec (.rec2fn f strict t.y) s = .next u ∧ exec (.rec2fn f strict t'.y) s = .next u' ∧ u' = u

/-! ### Round trips -/

/-- The round trip: for every legal format and every IEEE value of any class, FN2REC then REC2FN gives the value back with
`err = 0`, for both values of `det_payload`, every payload and both values of STRICT_ZERO_TAG (R113; the source states it
for normals and subnormals, the spec derives the rest). -/
def Obligations.IeeeValueSurvivesRoundTrip : Prop :=
  ∀ (f : IeeeFormat) (v : Nat) (det strict : Bool) (pay : Nat) (s : State),
    f.Legal → v < 2 ^ (f.e + f.s) → pay < 2 ^ (f.s - 1) →
      ∃ t, exec (.fn2rec f v det pay) s = .next t ∧
        exec (.rec2fn f strict t.y) t = .next { t with y := v, err := 0#2 }

/-- The other direction holds for the canonical patterns, with `det_payload = 1` (R113, R60). -/
def Obligations.CanonicalPatternSurvivesRoundTrip : Prop :=
  ∀ (f : IeeeFormat) (r : Nat) (strict : Bool) (pay : Nat) (s : State),
    f.Legal → r < 2 ^ (f.e + f.s + 1) → pay < 2 ^ (f.s - 1) → f.toRecodedFormat.Canonical r →
      ∃ t, exec (.rec2fn f strict r) s = .next t ∧ t.err = 0#2 ∧
        exec (.fn2rec f t.y true pay) t = .next { t with y := r, err := 0#2 }

/-! ### CLZ -/

/-- For `x != 0` the result is the `n` in `0 .. W-1` with `2^(W-1-n) <= x < 2^(W-n)` (R140). No condition is raised. That the
result for `x = 0` is `W` is decision D15 (R143; log 10). -/
def Obligations.ClzCountsLeadingZeros : Prop :=
  ∀ (W x : Nat) (s : State), 1 ≤ W → x < 2 ^ W →
    ∃ n, exec (.clz W x) s = .next { s with y := n, err := 0#2 } ∧
      (x = 0 → n = W) ∧ (x ≠ 0 → n < W ∧ 2 ^ (W - 1 - n) ≤ x ∧ x < 2 ^ (W - n))

/-- The port `n` holds every result and is the narrowest that does: its width `w` has `2^(w-1) <= W < 2^w`, that is
`ceil(log2(W + 1))` (R142, decision D15; log 10). -/
def Obligations.ClzOutputWidthIsSmallestSufficient : Prop :=
  ∀ (W x : Nat) (s t : State), 1 ≤ W → exec (.clz W x) s = .next t →
    t.y < 2 ^ clzOutputWidth W ∧ 2 ^ (clzOutputWidth W - 1) ≤ W ∧ W < 2 ^ clzOutputWidth W

/-- The six laws of the counter that R144 derives: (a) to (e), and (f), the identity by which it splits into two smaller
counters. Laws (b), (d) and (f) use the count of zero, and (e) holds at zero too: that count is decision D15 (R143;
log 10). -/
def Obligations.ClzSatisfiesSixLaws : Prop :=
  (∀ W x, 1 ≤ W → x < 2 ^ W →
    (clz W x = 0 ↔ x.testBit (W - 1) = true) ∧
    (clz W x = W ↔ x = 0) ∧
    (x ≠ 0 → (x <<< clz W x).testBit (W - 1) = true ∧ x <<< clz W x < 2 ^ W) ∧
    clz W (x >>> 1) = min W (clz W x + 1) ∧
    clz (W + 1) x = clz W x + 1) ∧
  (∀ Wh Wl x, x < 2 ^ (Wh + Wl) →
    clz (Wh + Wl) x = if x >>> Wl ≠ 0 then clz Wh (x >>> Wl) else Wh + clz Wl (x % 2 ^ Wl))

/-! ### REC2REC -/

/-- The general path, field by field, for every input pattern (R150; the bias is decision D13, log 11; the modulus and the
low bits under a preserved tag are decision D14, log 12). -/
def Obligations.Rec2recResult : Prop :=
  ∀ (a b : RecFormat) (v : Nat) (s : State) (fl : Fields) (tag arith nexp : Nat),
    a.Legal → b.Legal → v < 2 ^ (a.E + a.s) → a.fields v = fl → tag = fl.exp / 2 ^ (a.E - 3) →
    (arith : Int) = ((fl.exp : Int) + 2 ^ (b.E - 1) - 2 ^ (a.E - 1)) % 2 ^ b.E →
    nexp = (if tag = 0 ∨ tag ≥ 6 then tag * 2 ^ (b.E - 3) + arith % 2 ^ (b.E - 3) else arith) →
      exec (.rec2rec a b v) s =
        .next { s with
          y := fl.sign * 2 ^ (b.E + b.s - 1) + nexp * 2 ^ (b.s - 1) + fl.sig * 2 ^ b.s / 2 ^ a.s
          err := 0#2 }

/-- Identical formats return every input unchanged, malformed patterns included, and the general path would give the same
(R151; "identical" is decision D25). -/
def Obligations.Rec2recIdenticalFormats : Prop :=
  ∀ (a : RecFormat) (v : Nat) (s : State), a.Legal → v < 2 ^ (a.E + a.s) →
    exec (.rec2rec a a v) s = .next { s with y := v, err := 0#2 } ∧ rec2recGeneral a a v = v

/-- The trailing significand is `floor(sig * 2^sd / 2^ss)`, which is `sig << (sd - ss)` when the destination is at least as
wide and `sig >> (ss - sd)` when it is narrower, with no report (R152). That narrowing drops the LOW bits is the resolution
of conflict C3 (log 12). -/
def Obligations.Rec2recSignificandField : Prop :=
  ∀ (a b : RecFormat) (v : Nat) (s : State), a.Legal → b.Legal → v < 2 ^ (a.E + a.s) →
    ∃ t, exec (.rec2rec a b v) s = .next t ∧ t.err = 0#2 ∧
      (b.fields t.y).sig = (a.fields v).sig * 2 ^ b.s / 2 ^ a.s ∧
      (a.s ≤ b.s → (b.fields t.y).sig = (a.fields v).sig * 2 ^ (b.s - a.s)) ∧
      (b.s < a.s → (b.fields t.y).sig = (a.fields v).sig / 2 ^ (a.s - b.s))

/-- A zero, infinity or NaN keeps its tag, hence its class, in every destination format, and keeps the top significand
bit (a NaN its quiet bit); from a source with zero `low` bits into an exponent no wider, `low` stays zero (R155, R158,
R159; the arithmetic is decisions D13, D14). -/
def Obligations.Rec2recKeepsCategoricalTags : Prop :=
  ∀ (a b : RecFormat) (v : Nat) (s : State), a.Legal → b.Legal → v < 2 ^ (a.E + a.s) →
    (a.tag (a.fields v).exp = 0 ∨ 6 ≤ a.tag (a.fields v).exp) →
      ∃ t, exec (.rec2rec a b v) s = .next t ∧
        b.tag (b.fields t.y).exp = a.tag (a.fields v).exp ∧ b.classify t.y = a.classify v ∧
        (b.fields t.y).sig.testBit (b.s - 2) = (a.fields v).sig.testBit (a.s - 2) ∧
        (b.E ≤ a.E → a.low (a.fields v).exp = 0 → b.low (b.fields t.y).exp = 0)

/-- R156: REC2REC is total and reports nothing: every pattern of every grade gives an output with no condition, and a NaN
tag with a zero payload gives a NaN tag with a zero payload. -/
def Obligations.Rec2recNeverRaises : Prop :=
  ∀ (a b : RecFormat) (v : Nat) (s : State), a.Legal → b.Legal → v < 2 ^ (a.E + a.s) →
    ∃ y, y < 2 ^ (b.E + b.s) ∧ exec (.rec2rec a b v) s = .next { s with y := y, err := 0#2 } ∧
      (a.tag (a.fields v).exp = 7 → (a.fields v).sig = 0 → b.tag (b.fields y).exp = 7 ∧ (b.fields y).sig = 0)

/-- When the result means what the input meant: for an input with a tag of 1 to 5 the output denotes the same number
exactly when (a) no set significand bit is dropped and (b) the unreduced exponent sum stays inside tags 1 to 5 of the
destination (derived in R158; it rests on the value formula of R59, log 18, and on decision D13, log 11). -/
def Obligations.Rec2recKeepsNumberExactlyWhen : Prop :=
  ∀ (a b : RecFormat) (v : Nat) (s : State), a.Legal → b.Legal → v < 2 ^ (a.E + a.s) →
    a.NormalTag (a.fields v).exp →
      ∃ t, exec (.rec2rec a b v) s = .next t ∧ (b.denote t.y = a.denote v ↔ Rec2recKeepsNumber a b v)

/-- Widening through the recoded domain (the spec's programs P2 and P4): from a format into one with a wider exponent and
a significand at least as wide, FN2REC, REC2REC and REC2FN in turn give, with no condition, a value of the same sign that
denotes the same number; zeros, infinities and NaNs stay so (R158; log 7, log 11, log 12, log 18). -/
def Obligations.WideningKeepsNumber : Prop :=
  ∀ (f g : IeeeFormat) (v : Nat) (det strict : Bool) (pay : Nat) (s : State),
    f.Legal → g.Legal → f.e < g.e → f.s ≤ g.s → v < 2 ^ (f.e + f.s) → pay < 2 ^ (f.s - 1) →
      ∃ t u w, exec (.fn2rec f v det pay) s = .next t ∧
        exec (.rec2rec f.toRecodedFormat g.toRecodedFormat t.y) t = .next u ∧
        exec (.rec2fn g strict u.y) u = .next w ∧ w.err = 0#2 ∧
        g.denote w.y = f.denote v ∧ (g.fields w.y).sign = (f.fields v).sign ∧
        (g.classify w.y = .zero ↔ f.classify v = .zero) ∧
        (g.classify w.y = .infinity ↔ f.classify v = .infinity) ∧
        (g.classify w.y = .nan ↔ f.classify v = .nan)

/-! ### Classes, numbers and format primitives -/

/-- Both converters keep the class: FN2REC always, REC2FN whenever it raises nothing (R52, R56: "A class says what the
value stands for"; derived). -/
def Obligations.ConvertersKeepClass : Prop :=
  (∀ (f : IeeeFormat) (v : Nat) (det : Bool) (pay : Nat) (s : State),
    f.Legal → v < 2 ^ (f.e + f.s) → pay < 2 ^ (f.s - 1) →
      ∃ t, exec (.fn2rec f v det pay) s = .next t ∧ f.toRecodedFormat.classify t.y = f.classify v) ∧
  (∀ (f : IeeeFormat) (strict : Bool) (r : Nat) (s : State), f.Legal → r < 2 ^ (f.e + f.s + 1) →
      ∃ t, exec (.rec2fn f strict r) s = .next t ∧ (t.err = 0#2 → f.classify t.y = f.toRecodedFormat.classify r))

/-- Both converters keep the number: no rounding anywhere (R59, R111; the value formula is general knowledge, log 18). -/
def Obligations.ConvertersKeepNumber : Prop :=
  (∀ (f : IeeeFormat) (v : Nat) (det : Bool) (pay : Nat) (s : State),
    f.Legal → v < 2 ^ (f.e + f.s) → pay < 2 ^ (f.s - 1) →
      ∃ t, exec (.fn2rec f v det pay) s = .next t ∧ f.toRecodedFormat.denote t.y = f.denote v) ∧
  (∀ (f : IeeeFormat) (strict : Bool) (r : Nat) (s : State), f.Legal → r < 2 ^ (f.e + f.s + 1) →
      ∃ t, exec (.rec2fn f strict r) s = .next t ∧ (t.err = 0#2 → f.denote t.y = f.toRecodedFormat.denote r))

/-- The recoded exponent line (derived in R57): where each tag begins and ends, and the exponents below the subnormal band,
on which REC2FN reports InvalidEncoding (that it is this code and not LossyConversion is decision D6, R106, R177; log 9). -/
def Obligations.RecodedExponentLine : Prop :=
  ∀ (f : IeeeFormat) (r : RecFormat) (exp : Nat), f.Legal → r = f.toRecodedFormat → exp < 2 ^ r.E →
    (r.tag exp = 0 ↔ exp ≤ 2 ^ (r.E - 3) - 1) ∧
    (r.NormalTag exp ↔ 2 ^ (r.E - 3) ≤ exp ∧ exp ≤ 3 * r.K - 1) ∧
    (r.tag exp = 6 ↔ 3 * r.K ≤ exp ∧ exp ≤ 7 * 2 ^ (r.E - 3) - 1) ∧
    (r.tag exp = 7 ↔ 7 * 2 ^ (r.E - 3) ≤ exp) ∧
    (∀ (strict : Bool) (v : Nat) (s : State), v < 2 ^ (f.e + f.s + 1) → (r.fields v).exp = exp →
      2 ^ (r.E - 3) ≤ exp → exp < r.minSubnormalExponent →
        ∃ t, exec (.rec2fn f strict v) s = .next t ∧ t.err = 1#2)

/-- R85: `buildValue` composes the three fields, and fails with InvalidArgument unless `sign < 2`,
`biasedExponent < 2^X` and `significand < 2^(s-1)`; what it composes has those fields and `X + s` bits. -/
def Obligations.BuildValueComposesOrFails : Prop :=
  ∀ X s sign exp sig : Nat, 2 ≤ s →
    ((sign < 2 ∧ exp < 2 ^ X ∧ sig < 2 ^ (s - 1)) →
      ∃ v, buildValue X s sign exp sig = .ok v ∧
        v = (sign <<< (X + s - 1)) ||| (exp <<< (s - 1)) ||| sig ∧ v < 2 ^ (X + s) ∧
        fieldsOf X s v = { sign := sign, exp := exp, sig := sig }) ∧
    (¬ (sign < 2 ∧ exp < 2 ^ X ∧ sig < 2 ^ (s - 1)) → buildValue X s sign exp sig = .error .invalidArgument)

/-- R80, R81: the two predicates on an IEEE exponent field, which are never both true. -/
def Obligations.IeeeExponentPredicates : Prop :=
  ∀ (f : IeeeFormat) (exp : Nat), f.Legal → exp < 2 ^ f.e →
    (f.isInfinityOrNaN exp = true ↔ exp = 2 ^ f.e - 1) ∧
    (f.isZeroOrSubnormal exp = true ↔ exp = 0) ∧
    ¬ (f.isInfinityOrNaN exp = true ∧ f.isZeroOrSubnormal exp = true)

/-- The constructors of both descriptors (R82, R83, R84, R88, R89; the default NaN pattern is decision D21, log 17; zero
`low` bits are decision D10, log 8). -/
def Obligations.FormatConstructors : Prop :=
  ∀ (f : IeeeFormat) (r : RecFormat) (sign payload q : Nat), f.Legal → r = f.toRecodedFormat →
    sign < 2 → payload < 2 ^ (f.s - 1) → q < 2 →
    f.makeInfinity sign = .ok (sign * 2 ^ (f.e + f.s - 1) + (2 ^ f.e - 1) * 2 ^ (f.s - 1)) ∧
    f.makeNaN sign payload = .ok (sign * 2 ^ (f.e + f.s - 1) + (2 ^ f.e - 1) * 2 ^ (f.s - 1) + payload) ∧
    f.makeDefaultNaN sign q =
      .ok (sign * 2 ^ (f.e + f.s - 1) + (2 ^ f.e - 1) * 2 ^ (f.s - 1) + q * 2 ^ (f.s - 2) + (2 ^ (f.s - 2) - 1)) ∧
    r.makeInfinity sign payload = .ok (sign * 2 ^ (f.e + f.s) + 6 * 2 ^ (f.e - 2) * 2 ^ (f.s - 1) + payload) ∧
    r.makeNaN sign (payload / 2 ^ (f.s - 2)) payload =
      .ok (sign * 2 ^ (f.e + f.s) + 7 * 2 ^ (f.e - 2) * 2 ^ (f.s - 1) + payload) ∧
    r.makeNaN sign 1 0 = .ok (sign * 2 ^ (f.e + f.s) + 7 * 2 ^ (f.e - 2) * 2 ^ (f.s - 1) + 2 ^ (f.s - 2))

/-- Descriptor pairing is one to one on the legal formats, and the rebias of the normal range inverts FN2REC's (R6, R86,
R87). -/
def Obligations.FormatPairingAndRebias : Prop :=
  (∀ f : IeeeFormat, f.Legal → f.toRecodedFormat.Legal ∧ f.toRecodedFormat.toIEEEFN = f) ∧
  (∀ r : RecFormat, r.Legal → r.toIEEEFN.Legal ∧ r.toIEEEFN.toRecodedFormat = r) ∧
  (∀ (f : IeeeFormat) (x : Nat), f.Legal → 1 ≤ x → x ≤ 2 ^ f.e - 2 →
    f.toRecodedFormat.rebiasToIEEE ((x - 1) + f.toRecodedFormat.minNormalExponent) = .ok x)
end

