-- ==== Sys2Proof/Laws/Clz.lean ====
section
/-! SUPPORT. The recursion of the leading-zero counter and its bounds (R140). -/

namespace Sys2Proof.Machine

@[simp] theorem clz_zero_width (x : Nat) : clz 0 x = 0 := rfl

theorem clz_succ (W x : Nat) : clz (W + 1) x = if x.testBit W then 0 else clz W x + 1 := rfl

/-- The count never exceeds the width. -/
theorem clz_le (W x : Nat) : clz W x ≤ W := by
  induction W with
  | zero => simp
  | succ W ih => rw [clz_succ]; split <;> omega

/-- A number below `2^(W+1)` whose bit `W` is 0 is below `2^W`. -/
theorem lt_two_pow_of_testBit_false {W x : Nat} (hx : x < 2 ^ (W + 1)) (hb : x.testBit W = false) : x < 2 ^ W := by
  by_contra hge
  have h1 : x / 2 ^ W = 1 := by
    apply Nat.div_eq_of_lt_le <;> [omega; (rw [pow_succ] at hx; omega)]
  simp [Nat.testBit_eq_decide_div_mod_eq, h1] at hb

/-- The count of a value with a set bit stops inside the field. -/
theorem clz_lt_of_ne_zero {W x : Nat} (hx : x < 2 ^ W) (h0 : x ≠ 0) : clz W x < W := by
  induction W with
  | zero => simp at hx; omega
  | succ W ih =>
    rw [clz_succ]
    split
    · omega
    · next hb =>
      have := ih (lt_two_pow_of_testBit_false hx (by simpa using hb))
      omega

end Sys2Proof.Machine
end

