-- ==== Sys2Proof/Laws/Operands.lean ====
section
/-! SUPPORT. Field extraction and composition as arithmetic, inverse to each other (R63), and what `buildValue` gives
(R85). -/

namespace Sys2Proof

@[simp] theorem IeeeFormat.toRecodedFormat_s (f : IeeeFormat) : f.toRecodedFormat.s = f.s := rfl
@[simp] theorem IeeeFormat.toRecodedFormat_E (f : IeeeFormat) : f.toRecodedFormat.E = f.e + 1 := rfl
@[simp] theorem RecFormat.toIEEEFN_s (r : RecFormat) : r.toIEEEFN.s = r.s := rfl
@[simp] theorem RecFormat.toIEEEFN_e (r : RecFormat) : r.toIEEEFN.e = r.E - 1 := rfl
@[simp] theorem Params.fmt_s (p : Params) : p.fmt.s = p.s := rfl
@[simp] theorem Params.fmt_e (p : Params) : p.fmt.e = p.e := rfl
@[simp] theorem Params.dstFmt_s (p : Params) : p.dstFmt.s = p.sd := rfl
@[simp] theorem Params.dstFmt_e (p : Params) : p.dstFmt.e = p.ed := rfl

/-- All powers of a legal format as multiples of `q = 2^(e-2) = 2^(E-3)`, the width of one tag: with these, facts about
exponents are linear (R7, R8, R58). -/
theorem IeeeFormat.Legal.powers {f : IeeeFormat} (h : f.Legal) :
    2 ≤ 2 ^ (f.e - 2) ∧ 2 ^ (f.e - 1) = 2 * 2 ^ (f.e - 2) ∧ 2 ^ f.e = 4 * 2 ^ (f.e - 2) ∧
    2 ^ (f.e + 1) = 8 * 2 ^ (f.e - 2) ∧ 2 ≤ f.s ∧ f.s ≤ 2 ^ (f.e - 2) + 3 := by
  obtain ⟨hs, he, hb⟩ := h
  obtain ⟨k, hk⟩ : ∃ k, f.e = k + 3 := ⟨f.e - 3, by omega⟩
  have hp : 0 < 2 ^ k := by positivity
  rw [hk] at hb ⊢
  simp only [show k + 3 - 2 = k + 1 by omega, show k + 3 - 1 = k + 2 by omega, pow_succ] at hb ⊢
  refine ⟨?_, ?_, ?_, ?_, hs, hb⟩ <;> omega

@[simp] theorem IeeeFormat.toRecodedFormat_K (f : IeeeFormat) : f.toRecodedFormat.K = 2 ^ (f.e - 1) := by
  simp [RecFormat.K]

@[simp] theorem IeeeFormat.toRecodedFormat_minNormalExponent (f : IeeeFormat) :
    f.toRecodedFormat.minNormalExponent = 2 ^ (f.e - 1) + 2 := by simp [RecFormat.minNormalExponent]

@[simp] theorem IeeeFormat.toRecodedFormat_minSubnormalExponent (f : IeeeFormat) :
    f.toRecodedFormat.minSubnormalExponent = 2 ^ (f.e - 1) + 2 - f.s := by simp [RecFormat.minSubnormalExponent]

@[simp] theorem IeeeFormat.toRecodedFormat_width (f : IeeeFormat) : f.toRecodedFormat.width = f.e + f.s + 1 := by
  simp only [RecFormat.width, IeeeFormat.toRecodedFormat_E, IeeeFormat.toRecodedFormat_s]; omega

/-- A legal recoded format is the recoded format of its legal IEEE format (R86). -/
theorem RecFormat.Legal.exists_ieee {r : RecFormat} (h : r.Legal) : ∃ f : IeeeFormat, f.Legal ∧ r = f.toRecodedFormat :=
  ⟨r.toIEEEFN, h, by
    have h2 := h.2.1
    simp only [RecFormat.toIEEEFN_e] at h2
    cases r with
    | mk s E => simp only [RecFormat.toIEEEFN, IeeeFormat.toRecodedFormat, RecFormat.mk.injEq, true_and]; simp at h2; omega⟩

/-- `fieldsOf` as division and remainder. -/
theorem fieldsOf_eq (X s v : Nat) :
    fieldsOf X s v =
      { sign := v / 2 ^ (X + s - 1) % 2, exp := v / 2 ^ (s - 1) % 2 ^ X, sig := v % 2 ^ (s - 1) } := by
  simp [fieldsOf, Nat.shiftRight_eq_div_pow]

theorem fieldsOf_sign_lt (X s v : Nat) : (fieldsOf X s v).sign < 2 := by
  exact Nat.mod_lt _ Nat.zero_lt_two

theorem fieldsOf_exp_lt (X s v : Nat) : (fieldsOf X s v).exp < 2 ^ X := Nat.mod_lt _ (by positivity)

theorem fieldsOf_sig_lt (X s v : Nat) : (fieldsOf X s v).sig < 2 ^ (s - 1) := Nat.mod_lt _ (by positivity)

/-- The composition is a sum when the fields fit. -/
theorem concatFields_eq {X s sign exp sig : Nat} (hs : 1 ≤ s) (he : exp < 2 ^ X) (hg : sig < 2 ^ (s - 1)) :
    concatFields X s sign exp sig = sign * 2 ^ (X + s - 1) + exp * 2 ^ (s - 1) + sig := by
  have hw : X + s - 1 = X + (s - 1) := by omega
  have h1 : exp <<< (s - 1) < 2 ^ (X + (s - 1)) := by
    rw [Nat.shiftLeft_eq, pow_add]; exact Nat.mul_lt_mul_of_pos_right he (by positivity)
  have h2 : exp <<< (s - 1) ||| sig = exp <<< (s - 1) + sig := (Nat.shiftLeft_add_eq_or_of_lt hg _).symm
  have h3 : exp <<< (s - 1) + sig < 2 ^ (X + (s - 1)) := by
    rw [Nat.shiftLeft_eq, pow_add]
    calc exp * 2 ^ (s - 1) + sig < exp * 2 ^ (s - 1) + 2 ^ (s - 1) := by omega
      _ = (exp + 1) * 2 ^ (s - 1) := by ring
      _ ≤ 2 ^ X * 2 ^ (s - 1) := Nat.mul_le_mul_right _ he
  rw [concatFields, Nat.or_assoc, h2, hw, ← Nat.shiftLeft_add_eq_or_of_lt h3]
  simp only [Nat.shiftLeft_eq]
  ring

theorem concatFields_lt {X s sign exp sig : Nat} (hs : 1 ≤ s) (hn : sign < 2) (he : exp < 2 ^ X)
    (hg : sig < 2 ^ (s - 1)) : concatFields X s sign exp sig < 2 ^ (X + s) := by
  have hw : X + s = X + (s - 1) + 1 := by omega
  have hw' : X + s - 1 = X + (s - 1) := by omega
  rw [concatFields_eq hs he hg, hw', hw, pow_succ, pow_add]
  have h1 : exp * 2 ^ (s - 1) + sig < 2 ^ X * 2 ^ (s - 1) := by
    calc exp * 2 ^ (s - 1) + sig < exp * 2 ^ (s - 1) + 2 ^ (s - 1) := by omega
      _ = (exp + 1) * 2 ^ (s - 1) := by ring
      _ ≤ 2 ^ X * 2 ^ (s - 1) := Nat.mul_le_mul_right _ he
  have h2 : sign * (2 ^ X * 2 ^ (s - 1)) ≤ 1 * (2 ^ X * 2 ^ (s - 1)) := Nat.mul_le_mul_right _ (by omega)
  omega

/-- Extraction undoes composition. -/
theorem fieldsOf_concatFields {X s sign exp sig : Nat} (hs : 1 ≤ s) (hn : sign < 2) (he : exp < 2 ^ X)
    (hg : sig < 2 ^ (s - 1)) :
    fieldsOf X s (concatFields X s sign exp sig) = { sign := sign, exp := exp, sig := sig } := by
  have hw : X + s - 1 = s - 1 + X := by omega
  have hp : 0 < 2 ^ (s - 1) := by positivity
  have hX : 0 < 2 ^ X := by positivity
  have hdiv : concatFields X s sign exp sig / 2 ^ (s - 1) = sign * 2 ^ X + exp := by
    rw [concatFields_eq hs he hg, hw, pow_add,
      show sign * (2 ^ (s - 1) * 2 ^ X) + exp * 2 ^ (s - 1) + sig
        = sig + (sign * 2 ^ X + exp) * 2 ^ (s - 1) by ring,
      Nat.add_mul_div_right _ _ hp, Nat.div_eq_of_lt hg, Nat.zero_add]
  have hmod : concatFields X s sign exp sig % 2 ^ (s - 1) = sig := by
    rw [concatFields_eq hs he hg, hw, pow_add,
      show sign * (2 ^ (s - 1) * 2 ^ X) + exp * 2 ^ (s - 1) + sig
        = sig + (sign * 2 ^ X + exp) * 2 ^ (s - 1) by ring,
      Nat.add_mul_mod_self_right, Nat.mod_eq_of_lt hg]
  have hsign : concatFields X s sign exp sig / 2 ^ (X + s - 1) = sign := by
    rw [hw, pow_add, ← Nat.div_div_eq_div_mul, hdiv, Nat.add_comm, Nat.add_mul_div_right _ _ hX,
      Nat.div_eq_of_lt he, Nat.zero_add]
  rw [fieldsOf_eq, hsign, hdiv, hmod, Nat.mod_eq_of_lt hn, Nat.add_comm, Nat.add_mul_mod_self_right,
    Nat.mod_eq_of_lt he]

/-- Composition undoes extraction on a value of the format's width. -/
theorem concatFields_fieldsOf {X s v : Nat} (hs : 1 ≤ s) (hv : v < 2 ^ (X + s)) :
    concatFields X s (fieldsOf X s v).sign (fieldsOf X s v).exp (fieldsOf X s v).sig = v := by
  have hw : X + s - 1 = s - 1 + X := by omega
  have hw' : X + s = s - 1 + X + 1 := by omega
  rw [concatFields_eq hs (fieldsOf_exp_lt ..) (fieldsOf_sig_lt ..), fieldsOf_eq]
  simp only
  rw [hw, pow_add, ← Nat.div_div_eq_div_mul]
  rw [hw', pow_succ, pow_add] at hv
  have h1 : v / 2 ^ (s - 1) / 2 ^ X < 2 := by
    rw [Nat.div_div_eq_div_mul, Nat.div_lt_iff_lt_mul (by positivity)]; linarith
  rw [Nat.mod_eq_of_lt h1]
  have h2 := Nat.div_add_mod v (2 ^ (s - 1))
  have h3 := Nat.div_add_mod (v / 2 ^ (s - 1)) (2 ^ X)
  calc v / 2 ^ (s - 1) / 2 ^ X * (2 ^ (s - 1) * 2 ^ X) + v / 2 ^ (s - 1) % 2 ^ X * 2 ^ (s - 1) + v % 2 ^ (s - 1)
      = 2 ^ (s - 1) * (2 ^ X * (v / 2 ^ (s - 1) / 2 ^ X) + v / 2 ^ (s - 1) % 2 ^ X) + v % 2 ^ (s - 1) := by ring
    _ = v := by rw [h3, h2]

/-- Values of one width with equal fields are equal. -/
theorem eq_of_fieldsOf_eq {X s v w : Nat} (hs : 1 ≤ s) (hv : v < 2 ^ (X + s)) (hw : w < 2 ^ (X + s))
    (h : fieldsOf X s v = fieldsOf X s w) : v = w := by
  rw [← concatFields_fieldsOf hs hv, ← concatFields_fieldsOf hs hw, h]

theorem buildValue_of_fits {X s sign exp sig : Nat} (hn : sign < 2) (he : exp < 2 ^ X) (hg : sig < 2 ^ (s - 1)) :
    buildValue X s sign exp sig = .ok (concatFields X s sign exp sig) := by
  simp [buildValue, hn, he, hg]

/-- `buildValue` gives the composition of fields that fit, or InvalidArgument; nothing else. -/
theorem buildValue_ok {X s sign exp sig v : Nat} (h : buildValue X s sign exp sig = .ok v) :
    sign < 2 ∧ exp < 2 ^ X ∧ sig < 2 ^ (s - 1) ∧ v = concatFields X s sign exp sig := by
  unfold buildValue at h
  split at h
  · next hf => exact ⟨hf.1, hf.2.1, hf.2.2, by simpa using h.symm⟩
  · cases h

/-- The re-inserted implicit bit as a sum (R107). -/
theorem or_implicitBit {s sig : Nat} (h : sig < 2 ^ (s - 1)) : sig ||| (1 <<< (s - 1)) = 2 ^ (s - 1) + sig := by
  rw [Nat.or_comm, ← Nat.shiftLeft_add_eq_or_of_lt h, Nat.one_shiftLeft]

/-- The quiet bit or-ed into a payload that already has it changes nothing (R89). -/
theorem or_quietBit {s sig : Nat} (hs : 2 ≤ s) (h : sig < 2 ^ (s - 1)) :
    (((sig >>> (s - 2)) % 2) <<< (s - 2)) ||| sig = sig := by
  have hq : sig >>> (s - 2) < 2 := by
    rw [Nat.shiftRight_eq_div_pow, Nat.div_lt_iff_lt_mul (by positivity), ← pow_succ']
    rwa [show s - 2 + 1 = s - 1 by omega]
  rw [Nat.mod_eq_of_lt hq]
  apply Nat.eq_of_testBit_eq
  intro i
  simp only [Nat.testBit_or, Nat.testBit_shiftLeft, Nat.testBit_shiftRight]
  by_cases hi : s - 2 ≤ i
  · simp [hi, show s - 2 + (i - (s - 2)) = i by omega]
  · simp [hi]

/-- The tag as a quotient. -/
theorem RecFormat.tag_eq (r : RecFormat) (exp : Nat) : r.tag exp = exp / 2 ^ (r.E - 3) :=
  Nat.shiftRight_eq_div_pow ..

/-- A tag on top of low bits is read back. -/
theorem RecFormat.tag_low_append {r : RecFormat} {tag low : Nat} (h : low < 2 ^ (r.E - 3)) :
    r.tag ((tag <<< (r.E - 3)) ||| low) = tag ∧ r.low ((tag <<< (r.E - 3)) ||| low) = low := by
  have hp : 0 < 2 ^ (r.E - 3) := by positivity
  rw [← Nat.shiftLeft_add_eq_or_of_lt h, RecFormat.tag_eq, RecFormat.low, Nat.shiftLeft_eq, Nat.add_comm]
  rw [Nat.add_mul_div_right _ _ hp, Nat.add_mul_mod_self_right, Nat.div_eq_of_lt h, Nat.mod_eq_of_lt h]
  simp

end Sys2Proof
end

