-- ==== Sys2Proof/Laws/State.lean ====
section
/-! SUPPORT. One lemma per field per update of State, each true by rfl, and what the shared operations give. -/

namespace Sys2Proof.Machine

@[simp] theorem State.present_params (s : State) (w : Inputs) : (s.present w).params = s.params := rfl
@[simp] theorem State.present_inputs (s : State) (w : Inputs) : (s.present w).inputs = w := rfl
@[simp] theorem State.present_y (s : State) (w : Inputs) : (s.present w).y = s.y := rfl
@[simp] theorem State.present_err (s : State) (w : Inputs) : (s.present w).err = s.err := rfl
@[simp] theorem State.present_draws (s : State) (w : Inputs) : (s.present w).draws = s.draws := rfl

@[simp] theorem State.elaborate_params (s : State) (p : Params) : (s.elaborate p).params = p := rfl
@[simp] theorem State.elaborate_inputs (s : State) (p : Params) : (s.elaborate p).inputs = s.inputs := rfl
@[simp] theorem State.elaborate_y (s : State) (p : Params) : (s.elaborate p).y = s.y := rfl
@[simp] theorem State.elaborate_err (s : State) (p : Params) : (s.elaborate p).err = s.err := rfl
@[simp] theorem State.elaborate_draws (s : State) (p : Params) : (s.elaborate p).draws = s.draws := rfl

@[simp] theorem State.deliver_params (s : State) (v : Nat) : (s.deliver v).params = s.params := rfl
@[simp] theorem State.deliver_inputs (s : State) (v : Nat) : (s.deliver v).inputs = s.inputs := rfl
@[simp] theorem State.deliver_y (s : State) (v : Nat) : (s.deliver v).y = v := rfl
@[simp] theorem State.deliver_err (s : State) (v : Nat) : (s.deliver v).err = 0#2 := rfl
@[simp] theorem State.deliver_draws (s : State) (v : Nat) : (s.deliver v).draws = s.draws := rfl

@[simp] theorem State.raise_params (s : State) (c : BitVec 2) (w : Nat) : (s.raise c w).params = s.params := rfl
@[simp] theorem State.raise_inputs (s : State) (c : BitVec 2) (w : Nat) : (s.raise c w).inputs = s.inputs := rfl
@[simp] theorem State.raise_err (s : State) (c : BitVec 2) (w : Nat) : (s.raise c w).err = c := rfl
@[simp] theorem State.raise_draws (s : State) (c : BitVec 2) (w : Nat) : (s.raise c w).draws = s.draws + 1 := rfl

@[simp] theorem State.withFetchWord_params (s : State) (n w : Nat) : (s.withFetchWord n w).params = s.params := rfl
@[simp] theorem State.withFetchWord_inputs (s : State) (n w : Nat) :
    (s.withFetchWord n w).inputs = .ofTableWord w := rfl

/-- Whatever the free value is, it fits the bits it is drawn for. -/
theorem State.raise_y_lt (s : State) (c : BitVec 2) (w : Nat) :
    (s.raise c w).y < 2 ^ s.unspecifiedWidth w :=
  (Config.unspecifiedBits s.draws (s.unspecifiedWidth w)).isLt

/-- The code of a condition is 01 or 10; InvalidArgument has none (R171, R175). -/
theorem Condition.code_eq_some {c : Condition} {k : BitVec 2} (h : c.code = some k) :
    (c = .invalidEncoding ∧ k = 1#2) ∨ (c = .lossyConversion ∧ k = 2#2) := by
  cases c <;> simp_all [Condition.code]

/-- A consumer reads back from `err` the condition that was reported. -/
theorem conditionOfErr_code {c : Condition} {k : BitVec 2} (h : c.code = some k) : conditionOfErr k = some c := by
  obtain ⟨rfl, rfl⟩ | ⟨rfl, rfl⟩ := Condition.code_eq_some h <;> rfl

@[simp] theorem State.finish_ok (s : State) (w v : Nat) : s.finish w (.ok v) = .next (s.deliver v) := rfl

@[simp] theorem State.finish_invalidEncoding (s : State) (w : Nat) :
    s.finish w (.error .invalidEncoding) = .next (s.raise 1#2 w) := rfl

@[simp] theorem State.finish_lossyConversion (s : State) (w : Nat) :
    s.finish w (.error .lossyConversion) = .next (s.raise 2#2 w) := rfl

@[simp] theorem State.finish_invalidArgument (s : State) (w : Nat) :
    s.finish w (.error .invalidArgument) = .fault .invalidArgument := rfl

/-- Everything `finish` can do when it gives a next state. -/
theorem State.finish_next {s t : State} {w : Nat} {r : Except Condition Nat} (h : s.finish w r = .next t) :
    (∃ v, r = .ok v ∧ t = s.deliver v) ∨
    (r = .error .invalidEncoding ∧ t = s.raise 1#2 w) ∨
    (r = .error .lossyConversion ∧ t = s.raise 2#2 w) := by
  match r with
  | .ok v => exact .inl ⟨v, rfl, by simpa using h.symm⟩
  | .error .invalidEncoding => exact .inr (.inl ⟨rfl, by simpa using h.symm⟩)
  | .error .lossyConversion => exact .inr (.inr ⟨rfl, by simpa using h.symm⟩)
  | .error .invalidArgument => simp at h

/-- A well-formed evaluation is evaluated. -/
theorem checked_of_wellFormed {i : Instr} {k : Result} (h : i.wellFormed = true) : checked i k = k := by
  simp only [Instr.wellFormed, Bool.and_eq_true] at h
  simp [checked, h.1, h.2]

/-- Only a well-formed evaluation gives a next state. -/
theorem checked_next {i : Instr} {k : Result} {t : State} (h : checked i k = .next t) :
    i.wellFormed = true ∧ k = .next t := by
  unfold checked at h
  split at h
  · split at h
    · exact ⟨by simp_all [Instr.wellFormed], h⟩
    · cases h
  · cases h

/-- An evaluation faults only where its unit does. -/
theorem checked_fault {i : Instr} {k : Result} {r : Fault} (h : checked i k = .fault r) :
    i.wellFormed = true ∧ k = .fault r := by
  unfold checked at h
  split at h
  · split at h
    · exact ⟨by simp_all [Instr.wellFormed], h⟩
    · cases h
  · cases h

end Sys2Proof.Machine
end

