-- ==== Sys2Proof/Laws/Exec.lean ====
section
/-! SUPPORT. What a well-formed evaluation of each unit is, and everything an evaluation or a step can do. -/

namespace Sys2Proof.Machine

theorem exec_rec2fn {f : IeeeFormat} {strict : Bool} {r : Nat} (s : State) (hf : f.Legal)
    (hr : r < 2 ^ f.toRecodedFormat.width) :
    exec (.rec2fn f strict r) s = s.finish f.width (rec2fnUnit f strict r) :=
  checked_of_wellFormed (by simpa [Instr.wellFormed, Instr.legalParams, Instr.operandsFit, hf] using hr)

theorem exec_fn2rec {f : IeeeFormat} {v : Nat} {det : Bool} {pay : Nat} (s : State) (hf : f.Legal)
    (hv : v < 2 ^ f.width) (hp : pay < 2 ^ (f.s - 1)) :
    exec (.fn2rec f v det pay) s = s.finish f.toRecodedFormat.width (fn2recUnit f v det pay) :=
  checked_of_wellFormed (by simp [Instr.wellFormed, Instr.legalParams, Instr.operandsFit, hf, hv, hp])

theorem exec_clz {W x : Nat} (s : State) (hW : 1 ≤ W) (hx : x < 2 ^ W) :
    exec (.clz W x) s = .next (s.deliver (clz W x)) :=
  checked_of_wellFormed (by simp [Instr.wellFormed, Instr.legalParams, Instr.operandsFit, hW, hx])

theorem exec_rec2rec {a b : RecFormat} {v : Nat} (s : State) (ha : a.Legal) (hb : b.Legal)
    (hv : v < 2 ^ a.width) :
    exec (.rec2rec a b v) s = .next (s.deliver (rec2recUnit a b v)) :=
  checked_of_wellFormed (by
    simp only [Instr.wellFormed, Instr.legalParams, Instr.operandsFit, Bool.and_eq_true, decide_eq_true_eq]
    exact ⟨⟨ha, hb⟩, hv⟩)

/-- The unit's own result when an evaluation is carried out: only REC2FN can report a condition. -/
def unitResult : Instr → Except Condition Nat
  | .rec2fn f strict r => rec2fnUnit f strict r
  | .fn2rec f v det pay => fn2recUnit f v det pay
  | .clz W x => .ok (clz W x)
  | .rec2rec a b v => .ok (rec2recUnit a b v)

/-- The width of the unit's data output. -/
def unitOutputWidth : Instr → Nat
  | .rec2fn f _ _ => f.width
  | .fn2rec f _ _ _ => f.toRecodedFormat.width
  | .clz W _ => clzOutputWidth W
  | .rec2rec _ b _ => b.width

/-- Every evaluation is: check, evaluate the unit, finish. -/
theorem exec_eq (i : Instr) (s : State) :
    exec i s = checked i (s.finish (unitOutputWidth i) (unitResult i)) := by
  cases i <;> rfl

/-- Everything an evaluation can do when it gives a next state: deliver the unit's result, or raise its condition. -/
theorem exec_next {i : Instr} {s t : State} (h : exec i s = .next t) :
    i.wellFormed = true ∧
    ((∃ v, unitResult i = .ok v ∧ t = s.deliver v) ∨
     (unitResult i = .error .invalidEncoding ∧ t = s.raise 1#2 (unitOutputWidth i)) ∨
     (unitResult i = .error .lossyConversion ∧ t = s.raise 2#2 (unitOutputWidth i))) := by
  rw [exec_eq] at h
  obtain ⟨hw, hk⟩ := checked_next h
  exact ⟨hw, State.finish_next hk⟩

/-- Everything a step can do when it gives a next state: evaluate the unit that the input ports select. -/
theorem step_next {s t : State} (h : step s = .next t) :
    s.params.Legal ∧ s.inputs.Fits s.params ∧ exec (selectUnit s.params s.inputs) s = .next t := by
  unfold step decode at h
  split at h
  · next i hd =>
    split at hd
    · next hl =>
      split at hd
      · next hf => cases hd; exact ⟨hl, hf, h⟩
      · cases hd
    · cases hd
  · cases h
  · cases h

/-- On a legal instance with inputs that fit, a step is the evaluation of the selected unit. -/
theorem step_of_fits {s : State} (hl : s.params.Legal) (hf : s.inputs.Fits s.params) :
    step s = exec (selectUnit s.params s.inputs) s := by
  unfold step decode
  rw [if_pos hl, if_pos hf]

end Sys2Proof.Machine
end

