-- ==== Sys2Proof/Laws/PerInstr.lean ====
section
/-! SUPPORT. A fact about every instruction as syntax, one lemma per constructor: the port values that `encode` gives
for a well-formed evaluation of an instance fit the instance's ports (R64, R73). -/

namespace Sys2Proof.Laws.EncodeFits

/-- The port values of a well-formed evaluation of `CORE_TOP #(p)` fit its ports. -/
def Statement (i : Instr) : Prop :=
  ∀ p : Params, p.Legal → i.wellFormed = true → i.onInstance p = true → (encode i).Fits p

/-- An operand no wider than a converter operand of the instance fits the operand bus. -/
theorem lt_bus {p : Params} {w a : Nat} (h : a < 2 ^ w) (hw : w ≤ p.e + p.s + 1) : a < 2 ^ p.busWidth :=
  lt_of_lt_of_le h (Nat.pow_le_pow_right (by decide) (le_trans hw (le_max_left _ _)))

theorem rec2fn (fmt : IeeeFormat) (strict : Bool) (r : Nat) : Statement (.rec2fn fmt strict r) := by
  intro p _ hw hi
  obtain ⟨rfl, rfl⟩ := of_decide_eq_true hi
  have hr : r < 2 ^ p.fmt.toRecodedFormat.width := by
    simp only [Instr.wellFormed, Instr.operandsFit, Bool.and_eq_true, decide_eq_true_eq] at hw; exact hw.2
  exact ⟨lt_bus hr (by simp [RecFormat.width]; omega), by simp [encode]⟩

theorem fn2rec (fmt : IeeeFormat) (v : Nat) (det : Bool) (pay : Nat) : Statement (.fn2rec fmt v det pay) := by
  intro p _ hw hi
  obtain rfl := of_decide_eq_true hi
  have hr : v < 2 ^ p.fmt.width ∧ pay < 2 ^ (p.fmt.s - 1) := by
    simp only [Instr.wellFormed, Instr.operandsFit, Bool.and_eq_true, decide_eq_true_eq] at hw; exact hw.2
  exact ⟨lt_bus hr.1 (by simp [IeeeFormat.width]), hr.2⟩

theorem clz (W x : Nat) : Statement (.clz W x) := by
  intro p _ hw hi
  obtain rfl := of_decide_eq_true hi
  have hr : x < 2 ^ (p.s - 1) := by
    simp only [Instr.wellFormed, Instr.operandsFit, Bool.and_eq_true, decide_eq_true_eq] at hw; exact hw.2
  exact ⟨lt_bus hr (by omega), by simp [encode]⟩

theorem rec2rec (src dst : RecFormat) (a : Nat) : Statement (.rec2rec src dst a) := by
  intro p _ hw hi
  obtain ⟨rfl, rfl⟩ := of_decide_eq_true hi
  have hr : a < 2 ^ p.fmt.toRecodedFormat.width := by
    simp only [Instr.wellFormed, Instr.operandsFit, Bool.and_eq_true, decide_eq_true_eq] at hw; exact hw.2
  exact ⟨lt_bus hr (by simp [RecFormat.width]; omega), by simp [encode]⟩

end Sys2Proof.Laws.EncodeFits
end

