-- ==== Sys2Proof/Tests/Slice0.lean ====
section
/-! SUPPORT. The model's own tests. Expected values are the spec's: 95_test_vectors.md and the examples inside the rules,
named at each test. Then one witness theorem (or more) per statement that has hypotheses, at values on the edges of its
clauses. -/

namespace Sys2Proof.Tests

open Sys2Proof.Machine

/-- What a consumer sees of an outcome: the gated data (R194) and `err`; nothing unless it is a next state. -/
def seen (r : Result) : Option (Option Nat × BitVec 2) :=
  match r with
  | .next t => some (t.data, t.err)
  | .fault _ => none
  | .refused _ => none

/-- A result with no condition. -/
def ok (v : Nat) : Option (Option Nat × BitVec 2) := some (some v, 0#2)

/-- A raised condition: no data. -/
def err (c : BitVec 2) : Option (Option Nat × BitVec 2) := some (none, c)

def ev (i : Instr) : Option (Option Nat × BitVec 2) := seen (exec i .reset)

/-- One wrapper evaluation of `CORE_TOP #(p)` with `det_payload = 1`, as the spec's programs drive it. -/
def top (p : Params) (op : BitVec 2) (a : Nat) : Option (Option Nat × BitVec 2) :=
  seen (step ((State.reset.elaborate p).present { op := op, a := a, detPayload := true, infPayload := 0 }))

/-- `CORE_TOP #(24, 8, 53, 11, 1)` of program P1. -/
def p1 : Params := { s := 24, e := 8, sd := 53, ed := 11, strictZeroTag := true }

/-- A small legal format on the edge of the third bound of R7: `s = 2^(e-2) + 3`. -/
def tiny : IeeeFormat := { s := 5, e := 3 }

/-! ### Decoding (words written out from R72) -/

theorem test_decode_rec2fn : decode p1 { op := 0b00#2, a := 0x0C0000000, detPayload := false, infPayload := 0 } =
    .ok (.rec2fn .f32 true 0x0C0000000) := by rfl
theorem test_decode_fn2rec : decode p1 { op := 0b01#2, a := 0x17F800000, detPayload := false, infPayload := 0x2A5A5A } =
    .ok (.fn2rec .f32 0x7F800000 false 0x2A5A5A) := by rfl
theorem test_decode_clz : decode p1 { op := 0b10#2, a := 0xF00000300, detPayload := false, infPayload := 0 } =
    .ok (.clz 23 0x300) := by rfl
theorem test_decode_rec2rec : decode p1 { op := 0b11#2, a := 0x080000000, detPayload := false, infPayload := 0 } =
    .ok (.rec2rec .recf33 .recf65 0x080000000) := by rfl

/-! ### WellFormed refuses: one ill-formed term for each check -/

theorem test_wf_rec2fn_s : (Instr.rec2fn { s := 1, e := 8 } true 0).wellFormed = false := by decide
theorem test_wf_rec2fn_e : (Instr.rec2fn { s := 2, e := 2 } true 0).wellFormed = false := by decide
theorem test_wf_rec2fn_bound : (Instr.rec2fn { s := 12, e := 5 } true 0).wellFormed = false := by decide
theorem test_wf_rec2fn_wide : (Instr.rec2fn .f16 true 0x20000).wellFormed = false := by decide
theorem test_wf_fn2rec_params : (Instr.fn2rec { s := 6, e := 3 } 0 true 0).wellFormed = false := by decide
theorem test_wf_fn2rec_wide : (Instr.fn2rec .f16 0x10000 true 0).wellFormed = false := by decide
theorem test_wf_fn2rec_payload : (Instr.fn2rec .f16 0 true 0x400).wellFormed = false := by decide
theorem test_wf_clz_params : (Instr.clz 0 0).wellFormed = false := by decide
theorem test_wf_clz_wide : (Instr.clz 4 16).wellFormed = false := by decide
theorem test_wf_rec2rec_src : (Instr.rec2rec { s := 2, E := 3 } .recf17 0).wellFormed = false := by decide
theorem test_wf_rec2rec_dst : (Instr.rec2rec .recf17 { s := 1, E := 6 } 0).wellFormed = false := by decide
theorem test_wf_rec2rec_wide : (Instr.rec2rec .recf17 .recf33 0x20000).wellFormed = false := by decide

/-! ### Two tests per instruction -/

/-- S6, S7, R108 (three examples), R109, and the double's smallest subnormal (section 2.2). -/
theorem test_rec2fn_values :
    ev (.rec2fn .f64 true 0x0E000000000001337) = ok 0x7FF0000000001337 ∧
    ev (.rec2fn .f32 true 0x0C0000000) = ok 0x7F800000 ∧
    ev (.rec2fn .f32 true 0x035800000) = ok 0x00000001 ∧
    ev (.rec2fn .f32 true 0x040FFFFFE) = ok 0x007FFFFF ∧
    ev (.rec2fn .f32 true 0x13A400000) = ok 0x80000300 ∧
    ev (.rec2fn .f32 true 0x180C90FDB) = ok 0xC0490FDB ∧
    ev (.rec2fn .f64 true 0x03CE0000000000000) = ok 0x1 := by decide +kernel

/-- Section 2.4 (conditions) and S5 (both settings of STRICT_ZERO_TAG). -/
theorem test_rec2fn_conditions :
    ev (.rec2fn .f32 true 0x0E0000000) = err 1#2 ∧
    ev (.rec2fn .f32 true 0x034800000) = err 1#2 ∧
    ev (.rec2fn .f32 true 0x035000000) = err 2#2 ∧
    ev (.rec2fn .f32 true 0x040800001) = err 2#2 ∧
    ev (.rec2fn .f32 true 0x100012345) = err 1#2 ∧
    ev (.rec2fn .f32 false 0x100012345) = ok 0x80000000 ∧
    ev (.rec2fn .f32 true 0x10F800000) = ok 0x80000000 := by decide +kernel

/-- R122, R124, R121 examples and the tight f16 subnormal (section 2.2). -/
theorem test_fn2rec_values :
    ev (.fn2rec .f32 0x00000001 true 0) = ok 0x035800000 ∧
    ev (.fn2rec .f32 0x007FFFFF true 0) = ok 0x040FFFFFE ∧
    ev (.fn2rec .f32 0x80000300 true 0) = ok 0x13A400000 ∧
    ev (.fn2rec .f32 0x7F7FFFFF true 0) = ok 0x0BFFFFFFF ∧
    ev (.fn2rec .f32 0xFFC01337 true 0) = ok 0x1E0401337 ∧
    ev (.fn2rec .f16 0x0001 true 0) = ok 0x02000 ∧
    ev (.fn2rec .f64 0xC00921FB54442D18 true 0) = ok 0x1801921FB54442D18 := by decide +kernel

/-- S10: the payload of an infinity, and both ports ignored otherwise. -/
theorem test_fn2rec_payload :
    ev (.fn2rec .f32 0x7F800000 false 0x2A5A5A) = ok 0x0C02A5A5A ∧
    ev (.fn2rec .f32 0x7F800000 true 0x2A5A5A) = ok 0x0C0000000 ∧
    ev (.fn2rec .f32 0x3F800000 false 0x7FFFFF) = ok 0x080000000 := by decide +kernel

/-- Section 2.5. -/
theorem test_clz_values :
    ev (.clz 23 0x000300) = ok 13 ∧ ev (.clz 23 0x400000) = ok 0 ∧ ev (.clz 10 0x001) = ok 9 ∧
    ev (.clz 52 0x0000000001337) = ok 39 := by decide +kernel

/-- Section 2.5: zero, the one-bit counter and the widths of `n`. -/
theorem test_clz_zero_and_width :
    ev (.clz 23 0) = ok 23 ∧ ev (.clz 1 0) = ok 1 ∧ ev (.clz 1 1) = ok 0 ∧
    [1, 4, 10, 23, 52].map clzOutputWidth = [1, 3, 4, 5, 6] := by decide +kernel

/-- Section 2.6: widening (number, subnormal, zero, infinity with payload, NaN). -/
theorem test_rec2rec_widening :
    ev (.rec2rec .recf33 .recf65 0x180C90FDB) = ok 0x1801921FB60000000 ∧
    ev (.rec2rec .recf33 .recf65 0x035800000) = ok 0x076B0000000000000 ∧
    ev (.rec2rec .recf33 .recf65 0x000000000) = ok 0x01000000000000000 ∧
    ev (.rec2rec .recf33 .recf65 0x1C02A5A5A) = ok 0x1C8054B4B40000000 ∧
    ev (.rec2rec .recf17 .recf33 0x0E200) = ok 0x0EC400000 := by decide +kernel

/-- Section 2.6, R159, S9: narrowing (truncation, wrap both ways, malformed NaN) and identity. -/
theorem test_rec2rec_narrowing :
    ev (.rec2rec .recf65 .recf33 0x1801921FB54442D18) = ok 0x180C90FDA ∧
    ev (.rec2rec .recf65 .recf33 0x0BFFFFFFFFFFFFFFF) = ok 0x07FFFFFFF ∧
    ev (.rec2rec .recf33 .recf17 0x035800000) = ok 0x02C00 ∧
    ev (.rec2rec .recf65 .recf33 0x0E000000000001337) = ok 0x0E0000000 ∧
    ev (.rec2rec .recf33 .recf33 0x1FFFFFFFF) = ok 0x1FFFFFFFF := by decide +kernel

/-! ### The wrapper: programs P1 and P5, and the helper constructors -/

theorem test_wrapper_p1_p5 :
    top p1 1#2 0x00000000080000300 = ok 0x13A400000 ∧ top p1 0#2 0x0000000013A400000 = ok 0x80000300 ∧
    top p1 2#2 0x000300 = ok 13 ∧ top p1 3#2 0x080000000 = ok 0x08000000000000000 := by decide +kernel

theorem test_default_nan :
    (IeeeFormat.f32.makeDefaultNaN 0 1).toOption = some 0x7FFFFFFF ∧
    (IeeeFormat.f32.makeDefaultNaN 0 0).toOption = some 0x7FBFFFFF ∧
    (RecFormat.recf33.makeNaN 0 1 0).toOption = some 0x0E0400000 ∧
    (RecFormat.recf33.makeInfinity 1 0x000123).toOption = some 0x1C0000123 := by decide +kernel

/-- R70, R58: the named formats are legal pairs of the stated widths, with the stated thresholds. -/
theorem test_named_formats :
    (namedFormats.all fun q => decide (q.2.1.Legal ∧ q.2.1.toRecodedFormat = q.2.2.2)) = true ∧
    namedFormats.map (fun q => (q.2.1.width, q.2.2.2.width)) = [(16, 17), (32, 33), (64, 65)] ∧
    namedFormats.map (fun q => (q.2.2.2.minNormalExponent, q.2.2.2.minSubnormalExponent)) =
      [(18, 7), (130, 106), (1026, 973)] := by decide +kernel

theorem test_fetch_word : step (State.reset.withFetchWord 8 2) = exec (.clz 23 0) (State.reset.withFetchWord 8 2) := by
  rfl

/-! ### Witnesses: concrete values that meet all hypotheses of each statement, on the edges of its clauses -/

/-- The widest bus value and payload that fit, for each operation code. -/
theorem witness_OperationCodesSelectUnits :
    p1.Legal ∧ ∀ op : BitVec 2, ({ op := op, a := 2 ^ 65 - 1, detPayload := true, infPayload := 2 ^ 23 - 1 } : Inputs).Fits p1 := by
  decide +kernel

theorem witness_DecodeInvertsEncode :
    p1.Legal ∧
    ([.rec2fn .f32 true (2 ^ 33 - 1), .fn2rec .f32 (2 ^ 32 - 1) true (2 ^ 23 - 1), .clz 23 (2 ^ 23 - 1),
      .rec2rec .recf33 .recf65 (2 ^ 33 - 1)] : List Instr).all (fun i => i.wellFormed && i.onInstance p1) = true := by
  decide +kernel

theorem witness_DecodedEvaluationIsWellFormed :
    decode p1 { op := 3#2, a := 2 ^ 65 - 1, detPayload := true, infPayload := 2 ^ 23 - 1 } =
      .ok (.rec2rec .recf33 .recf65 (2 ^ 33 - 1)) := by rfl

theorem witness_StepRunsDecodedEvaluation :
    decode State.reset.params State.reset.inputs = .ok (.rec2fn .f32 true 0) := by rfl

theorem witness_WrapperCompletesAndExtendsWithZeros :
    ∀ op : BitVec 2, (State.reset.present { op := op, a := 2 ^ 65 - 1, detPayload := false, infPayload := 0 }).params.Legal ∧
      (State.reset.present { op := op, a := 2 ^ 65 - 1, detPayload := false, infPayload := 0 }).inputs.Fits p1 := by
  decide +kernel

/-- The first value too wide, clause by clause. -/
theorem witness_ValueWiderThanPortIsRefused :
    tiny.Legal ∧ 2 ^ (tiny.e + tiny.s + 1) ≤ 512 ∧ 2 ^ (tiny.e + tiny.s) ≤ 256 ∧ 2 ^ (tiny.s - 1) ≤ 16 ∧
    1 ≤ 1 ∧ 2 ^ 1 ≤ 2 ∧ RecFormat.recf17.Legal ∧ 2 ^ (RecFormat.recf17.E + RecFormat.recf17.s) ≤ 131072 ∧
    ¬ ({ op := 0#2, a := 2 ^ 65, detPayload := false, infPayload := 0 } : Inputs).Fits p1 ∧
    ¬ ({ op := 0#2, a := 0, detPayload := false, infPayload := 2 ^ 23 } : Inputs).Fits p1 := by decide +kernel

/-- One step outside each of the three bounds. -/
theorem witness_IllegalParametersAreRefused :
    ¬ ({ s := 1, e := 3 } : IeeeFormat).Legal ∧ ¬ ({ s := 2, e := 2 } : IeeeFormat).Legal ∧
    2 ^ (3 - 2) + 3 < 6 ∧ ¬ ({ s := 6, e := 3 } : IeeeFormat).Legal ∧
    ¬ (({ s := 2, E := 3 } : RecFormat).Legal ∧ RecFormat.recf17.Legal) ∧
    ¬ ({ s := 24, e := 8, sd := 12, ed := 5, strictZeroTag := true } : Params).Legal := by decide +kernel

theorem witness_StepKeepsStateWellFormed : State.reset.Wf ∧ step State.reset = .next State.reset := ⟨by decide +kernel, rfl⟩

/-- The state after an evaluation of REC2FN that raises, for the statements about any next state. -/
theorem witness_EvaluationFrame :
    exec (.rec2fn .f32 true 0x0E0000000) State.reset = .next (State.reset.raise 1#2 32) ∧
    exec (.clz 4 5) State.reset = .next (State.reset.deliver 1) := ⟨rfl, rfl⟩

theorem witness_OutputsDependOnPresentEvaluationOnly :
    exec (.clz 4 5) State.reset = .next (State.reset.deliver 1) := rfl

theorem witness_EvaluationIsIdempotent : step State.reset = .next State.reset := rfl

/-- Tag 0 at its two ends of `low`, with and without a significand bit. -/
theorem witness_Rec2fnZeroTag :
    IeeeFormat.f16.Legal ∧
    (∀ r ∈ [0x00000, 0x11C00, 0x01FFF, 0x00001],
      r < 2 ^ 17 ∧ RecFormat.recf17.tag (RecFormat.recf17.fields r).exp = 0) ∧
    (RecFormat.recf17.fields 0x11C00).sig = 0 ∧ (RecFormat.recf17.fields 0x00001).sig ≠ 0 := by decide +kernel

theorem witness_Rec2fnInfinityTag :
    IeeeFormat.f16.Legal ∧
    ∀ r ∈ [0x0C000, 0x1DFFF], r < 2 ^ 17 ∧ RecFormat.recf17.tag (RecFormat.recf17.fields r).exp = 6 := by decide +kernel

theorem witness_Rec2fnNanTag :
    IeeeFormat.f16.Legal ∧
    (∀ r ∈ [0x0E000, 0x0E001, 0x1FFFF], r < 2 ^ 17 ∧ RecFormat.recf17.tag (RecFormat.recf17.fields r).exp = 7) ∧
    (RecFormat.recf17.fields 0x0E000).sig = 0 ∧ (RecFormat.recf17.fields 0x0E001).sig = 1 := by decide +kernel

/-- The smallest and the largest single subnormal. -/
theorem witness_Rec2fnSubnormalBand :
    IeeeFormat.f32.Legal ∧
    (∀ r ∈ [0x035800000, 0x040FFFFFE],
      r < 2 ^ 33 ∧ RecFormat.recf33.NormalTag (RecFormat.recf33.fields r).exp ∧
      106 ≤ (RecFormat.recf33.fields r).exp ∧ (RecFormat.recf33.fields r).exp < 130 ∧
      (2 ^ 23 + (RecFormat.recf33.fields r).sig) % 2 ^ (130 - (RecFormat.recf33.fields r).exp) = 0) := by decide +kernel

theorem witness_Rec2fnNormalRange :
    IeeeFormat.f32.Legal ∧
    (∀ r ∈ [0x041000000, 0x0BFFFFFFF],
      r < 2 ^ 33 ∧ RecFormat.recf33.NormalTag (RecFormat.recf33.fields r).exp ∧
      130 ≤ (RecFormat.recf33.fields r).exp) := by decide +kernel

theorem witness_Rec2fnInvalidEncodingCauses :
    IeeeFormat.f32.Legal ∧ 0x0E0000000 < 2 ^ 33 ∧ RecFormat.recf33.tag (RecFormat.recf33.fields 0x0E0000000).exp = 7 ∧
    RecFormat.recf33.tag (RecFormat.recf33.fields 0x034800000).exp = 1 ∧
    RecFormat.recf33.tag (RecFormat.recf33.fields 0x000000001).exp = 0 := by decide +kernel

theorem witness_Rec2fnLossyConversionCause :
    IeeeFormat.f32.Legal ∧ 0x040800001 < 2 ^ 33 ∧ RecFormat.recf33.LossyPattern 0x040800001 ∧
    RecFormat.recf33.LossyPattern 0x035000000 ∧ ¬ RecFormat.recf33.LossyPattern 0x041000001 := by decide +kernel

theorem witness_Rec2recNarrowingGivesNextState :
    exec (.rec2rec .recf65 .recf33 0x08000000000000001) State.reset = .next (State.reset.deliver 0x080000000) := rfl

theorem witness_RaisedConditionLeavesDataFree :
    exec (.rec2fn .f32 true 0x0E0000000) State.reset = .next (State.reset.raise 1#2 32) ∧
    exec (.rec2fn .f32 true 0x035000000) State.reset = .next (State.reset.raise 2#2 32) ∧ (1#2 : BitVec 2) ≠ 0#2 ∧
    (2#2 : BitVec 2) ≠ 0#2 := ⟨rfl, rfl, by decide, by decide⟩

/-- The last exponent below the band and the lowest inside it. -/
theorem witness_Rec2fnBandTestComesFirst :
    IeeeFormat.f32.Legal ∧ 0x034800000 < 2 ^ 33 ∧ RecFormat.recf33.NormalTag (RecFormat.recf33.fields 0x034800000).exp ∧
    (RecFormat.recf33.fields 0x034800000).exp = 105 ∧ 2 ^ (8 - 1) + 2 - 24 = 106 ∧
    RecFormat.recf33.NormalTag (RecFormat.recf33.fields 0x035000000).exp ∧
    (RecFormat.recf33.fields 0x035000000).exp = 106 := by decide +kernel

theorem witness_Rec2fnKeepsSign : IeeeFormat.f32.Legal ∧ 2 ^ 33 - 1 < 2 ^ (8 + 24 + 1) := by decide +kernel

theorem witness_Rec2fnAcceptsExactlyWellFormed :
    IeeeFormat.f16.Legal ∧ 2 ^ 17 - 1 < 2 ^ (5 + 11 + 1) ∧
    RecFormat.recf17.grade true 0x0C000 = .canonical ∧ RecFormat.recf17.grade true 0x0C123 = .wellFormed ∧
    RecFormat.recf17.grade true 0x00001 = .malformed ∧ RecFormat.recf17.grade false 0x00001 = .wellFormed := by
  decide +kernel

/-- Pairs that differ in don't-care bits only, one for each of the three tags. -/
theorem witness_Rec2fnIgnoresDontCareBits :
    IeeeFormat.f16.Legal ∧
    (∀ q ∈ [(0x00000, 0x01C00, 0), (0x0C000, 0x0DFFF, 6), (0x0E001, 0x0FC01, 7)],
      q.1 < 2 ^ 17 ∧ q.2.1 < 2 ^ 17 ∧ RecFormat.recf17.tag (RecFormat.recf17.fields q.1).exp = q.2.2 ∧
      RecFormat.recf17.tag (RecFormat.recf17.fields q.2.1).exp = q.2.2 ∧
      (RecFormat.recf17.fields q.1).sign = (RecFormat.recf17.fields q.2.1).sign) ∧
    (RecFormat.recf17.fields 0x0E001).sig = (RecFormat.recf17.fields 0x0FC01).sig ∧
    (RecFormat.recf17.fields 0x00000).sig = (RecFormat.recf17.fields 0x01C00).sig := by decide +kernel

theorem witness_Rec2fnInjectiveOnNormalTags :
    IeeeFormat.f32.Legal ∧ RecFormat.recf33.NormalTag (RecFormat.recf33.fields 0x080000000).exp ∧
    exec (.rec2fn .f32 true 0x080000000) State.reset = .next (State.reset.deliver 0x3F800000) :=
  ⟨by decide +kernel, by decide +kernel, rfl⟩

theorem witness_Fn2recSpecialValues :
    IeeeFormat.f32.Legal ∧ 0x7FFFFF < 2 ^ (24 - 1) ∧
    (∀ v ∈ [0x7F800000, 0xFF800000, 0x7F800001], v < 2 ^ 32 ∧ (IeeeFormat.f32.fields v).exp = 2 ^ 8 - 1) ∧
    (IeeeFormat.f32.fields 0xFF800000).sig = 0 ∧ (IeeeFormat.f32.fields 0x7F800001).sig ≠ 0 := by decide +kernel

/-- The smallest subnormal (`n = s - 2`) and the largest (`n = 0`). -/
theorem witness_Fn2recSubnormal :
    IeeeFormat.f32.Legal ∧ 0 < 2 ^ (24 - 1) ∧
    (∀ q ∈ [(0x00000001, 22), (0x007FFFFF, 0)],
      q.1 < 2 ^ 32 ∧ (IeeeFormat.f32.fields q.1).exp = 0 ∧ q.2 ≤ 24 - 2 ∧
      2 ^ (24 - 2 - q.2) ≤ (IeeeFormat.f32.fields q.1).sig ∧ (IeeeFormat.f32.fields q.1).sig < 2 ^ (24 - 1 - q.2)) := by
  decide +kernel

theorem witness_Fn2recZero :
    IeeeFormat.f32.Legal ∧ 0 < 2 ^ (24 - 1) ∧
    ∀ v ∈ [0x00000000, 0x80000000],
      v < 2 ^ 32 ∧ (IeeeFormat.f32.fields v).exp = 0 ∧ (IeeeFormat.f32.fields v).sig = 0 := by decide +kernel

theorem witness_Fn2recNormal :
    IeeeFormat.f32.Legal ∧ 0 < 2 ^ (24 - 1) ∧
    ∀ v ∈ [0x00800000, 0x7F7FFFFF],
      v < 2 ^ 32 ∧ 1 ≤ (IeeeFormat.f32.fields v).exp ∧ (IeeeFormat.f32.fields v).exp ≤ 2 ^ 8 - 2 := by decide +kernel

/-- The largest pattern and payload (for PayloadMattersForInfinityOnly and the first halves of ConvertersKeepClass,
ConvertersKeepNumber and SignBitKeptByFn2recAndRec2rec too). -/
theorem witness_Fn2recNeverRaises :
    IeeeFormat.f32.Legal ∧ 2 ^ 32 - 1 < 2 ^ (8 + 24) ∧ 2 ^ 23 - 1 < 2 ^ (24 - 1) ∧ tiny.Legal ∧
    2 ^ 8 - 1 < 2 ^ (tiny.e + tiny.s) ∧ 2 ^ 4 - 1 < 2 ^ (tiny.s - 1) := by decide +kernel

/-- The condition of PayloadMattersForInfinityOnly's first clause is met, and its other side too. -/
theorem witness_PayloadMattersForInfinityOnly :
    IeeeFormat.f32.classify 0x3F800000 ≠ .infinity ∧ IeeeFormat.f32.classify 0x7F800000 = .infinity := by decide +kernel

theorem witness_IeeeValueSurvivesRoundTrip :
    IeeeFormat.f16.Legal ∧ 2 ^ 16 - 1 < 2 ^ (5 + 11) ∧ 2 ^ 10 - 1 < 2 ^ (11 - 1) := by decide +kernel

theorem witness_ConvertersKeepNumber :
    IeeeFormat.f16.Legal ∧ 2 ^ 16 - 1 < 2 ^ (5 + 11) ∧ 2 ^ 10 - 1 < 2 ^ (11 - 1) ∧ 0x02000 < 2 ^ (5 + 11 + 1) ∧
    exec (.rec2fn .f16 true 0x02000) State.reset = .next (State.reset.deliver 1) :=
  ⟨by decide +kernel, by decide +kernel, by decide +kernel, by decide +kernel, rfl⟩

/-- The second half: a recoded pattern that converts. -/
theorem witness_ConvertersKeepClass :
    IeeeFormat.f32.Legal ∧ 0x035800000 < 2 ^ (8 + 24 + 1) ∧
    exec (.rec2fn .f32 true 0x035800000) State.reset = .next (State.reset.deliver 1) :=
  ⟨by decide +kernel, by decide +kernel, rfl⟩

theorem witness_Fn2recImageIsCanonicalPatterns :
    IeeeFormat.f16.Legal ∧ 0 < 2 ^ (11 - 1) ∧ 2 ^ 17 - 1 < 2 ^ (5 + 11 + 1) ∧
    exec (.fn2rec .f16 0x0001 true 0) State.reset = .next (State.reset.deliver 0x02000) ∧
    RecFormat.recf17.Canonical 0x02000 ∧ ¬ RecFormat.recf17.Canonical 0x0C123 :=
  ⟨by decide +kernel, by decide +kernel, by decide +kernel, rfl, by decide +kernel, by decide +kernel⟩

/-- One canonical pattern of each of R60's five kinds. -/
theorem witness_CanonicalPatternSurvivesRoundTrip :
    IeeeFormat.f16.Legal ∧ 0x3FF < 2 ^ (11 - 1) ∧
    ∀ r ∈ [0x10000, 0x0C000, 0x0E001, 0x04800, 0x0BFFF, 0x02000, 0x047FE],
      r < 2 ^ 17 ∧ RecFormat.recf17.Canonical r := by decide +kernel

theorem witness_ClzCountsLeadingZeros : 1 ≤ 1 ∧ 1 < 2 ^ 1 ∧ 0 < 2 ^ 1 ∧ 1 ≤ 52 ∧ 2 ^ 52 - 1 < 2 ^ 52 := by decide +kernel

theorem witness_ClzOutputWidthIsSmallestSufficient : exec (.clz 4 0) State.reset = .next (State.reset.deliver 4) := rfl

theorem witness_ClzSatisfiesSixLaws : 1 ≤ 1 ∧ 0x3FF < 2 ^ 10 ∧ 0x200 ≠ 0 ∧ 0x3FF < 2 ^ (4 + 6) ∧ 0 < 2 ^ (0 + 0) := by
  decide +kernel

/-- A wrap below zero: exponent 107 to recf17 is `107 - 224 = -117`, which is 11 mod 64 (R159). -/
theorem witness_Rec2recResult :
    RecFormat.recf33.Legal ∧ RecFormat.recf17.Legal ∧ 0x035800000 < 2 ^ (9 + 24) ∧
    (RecFormat.recf33.fields 0x035800000).exp = 107 ∧ (((11 : Nat) : Int) = (((107 : Nat) : Int) + 2 ^ (6 - 1) - 2 ^ (9 - 1)) % 2 ^ 6) := by
  decide +kernel

theorem witness_Rec2recIdenticalFormats : RecFormat.recf65.Legal ∧ 2 ^ 65 - 1 < 2 ^ (12 + 53) := by decide +kernel

/-- Both halves: the largest pattern of each side. -/
theorem witness_SignBitKeptByFn2recAndRec2rec :
    IeeeFormat.f32.Legal ∧ 2 ^ 32 - 1 < 2 ^ (8 + 24) ∧ 2 ^ 23 - 1 < 2 ^ (24 - 1) ∧
    RecFormat.recf17.Legal ∧ RecFormat.recf33.Legal ∧ 2 ^ 17 - 1 < 2 ^ (6 + 11) := by decide +kernel

/-- The three cases: a wider, an equal and a narrower destination significand. -/
theorem witness_Rec2recSignificandField :
    RecFormat.recf17.Legal ∧ RecFormat.recf33.Legal ∧ 2 ^ 17 - 1 < 2 ^ (6 + 11) ∧ 2 ^ 33 - 1 < 2 ^ (9 + 24) ∧
    RecFormat.recf17.s ≤ RecFormat.recf33.s ∧ RecFormat.recf33.s ≤ RecFormat.recf33.s ∧
    RecFormat.recf17.s < RecFormat.recf33.s := by decide +kernel

theorem witness_Rec2recNeverRaises :
    RecFormat.recf33.Legal ∧ RecFormat.recf17.Legal ∧ 2 ^ 33 - 1 < 2 ^ (9 + 24) ∧
    RecFormat.recf33.tag (RecFormat.recf33.fields 0x0E0000000).exp = 7 ∧
    (RecFormat.recf33.fields 0x0E0000000).sig = 0 := by decide +kernel

theorem witness_Rec2recKeepsCategoricalTags :
    RecFormat.recf65.Legal ∧ RecFormat.recf33.Legal ∧ RecFormat.recf33.E ≤ RecFormat.recf65.E ∧
    (∀ v ∈ [0x00000000000000000, 0x0C000000000000000, 0x0E008000000000000],
      v < 2 ^ (12 + 53) ∧ (RecFormat.recf65.tag (RecFormat.recf65.fields v).exp = 0 ∨
        6 ≤ RecFormat.recf65.tag (RecFormat.recf65.fields v).exp) ∧
      RecFormat.recf65.low (RecFormat.recf65.fields v).exp = 0) := by decide +kernel

/-- Inputs of both kinds: one whose number is kept and, outside the conditions, one that wraps and one that loses bits. -/
theorem witness_Rec2recKeepsNumberExactlyWhen :
    RecFormat.recf65.Legal ∧ RecFormat.recf33.Legal ∧
    (∀ v ∈ [0x08000000000000000, 0x0BFFFFFFFFFFFFFFF, 0x08000000000000001],
      v < 2 ^ (12 + 53) ∧ RecFormat.recf65.NormalTag (RecFormat.recf65.fields v).exp) ∧
    Rec2recKeepsNumber .recf65 .recf33 0x08000000000000000 ∧ ¬ Rec2recKeepsNumber .recf65 .recf33 0x0BFFFFFFFFFFFFFFF ∧
    ¬ Rec2recKeepsNumber .recf65 .recf33 0x08000000000000001 := by decide +kernel

theorem witness_WideningKeepsNumber :
    IeeeFormat.f16.Legal ∧ IeeeFormat.f32.Legal ∧ IeeeFormat.f16.e < IeeeFormat.f32.e ∧ IeeeFormat.f16.s ≤ IeeeFormat.f32.s ∧
    2 ^ 16 - 1 < 2 ^ (5 + 11) ∧ 2 ^ 10 - 1 < 2 ^ (11 - 1) := by decide +kernel

/-- The exponents at the ends of the tags, and a pattern in the band that REC2FN turns away. -/
theorem witness_RecodedExponentLine :
    IeeeFormat.f32.Legal ∧ RecFormat.recf33 = IeeeFormat.f32.toRecodedFormat ∧
    (∀ x ∈ [0, 63, 64, 383, 384, 447, 448, 511], x < 2 ^ RecFormat.recf33.E) ∧
    (RecFormat.recf33.fields 0x034800000).exp = 105 ∧ 2 ^ (9 - 3) ≤ 105 ∧
    105 < RecFormat.recf33.minSubnormalExponent := by decide +kernel

/-- Each of the three preconditions on its edge, met and failed. -/
theorem witness_BuildValueComposesOrFails :
    (1 < 2 ∧ 255 < 2 ^ 8 ∧ 2 ^ 23 - 1 < 2 ^ (24 - 1)) ∧ ¬ 2 < 2 ∧ ¬ 256 < 2 ^ 8 ∧ ¬ 2 ^ 23 < 2 ^ (24 - 1) := by decide +kernel

theorem witness_IeeeExponentPredicates :
    IeeeFormat.f32.Legal ∧ ∀ x ∈ [0, 1, 254, 255], x < 2 ^ IeeeFormat.f32.e := by decide +kernel

theorem witness_FormatConstructors :
    ({ s := 2, e := 3 } : IeeeFormat).Legal ∧ 1 < 2 ∧ 1 < 2 ^ (2 - 1) ∧ IeeeFormat.f32.Legal ∧ 0x7FFFFF < 2 ^ (24 - 1) := by
  decide +kernel

theorem witness_FormatPairingAndRebias :
    tiny.Legal ∧ ({ s := 2, E := 4 } : RecFormat).Legal ∧ 1 ≤ 1 ∧ 1 ≤ 2 ^ tiny.e - 2 ∧ 6 ≤ 2 ^ tiny.e - 2 := by
  decide +kernel

end Sys2Proof.Tests
end

section
/-! SUPPORT. The result of every unit fits its data output, and that output fits the wrapper's bus (R64, R73, R90). -/

namespace Sys2Proof

/-- Whatever `buildValue` composes has the width of the format (R85). -/
theorem buildValue_lt {X s sign exp sig v : Nat} (hs : 1 ≤ s) (h : buildValue X s sign exp sig = .ok v) :
    v < 2 ^ (X + s) := by
  obtain ⟨hsign, hexp, hsig, rfl⟩ := buildValue_ok h
  exact concatFields_lt hs hsign hexp hsig

/-- An exponent field is a tag of three bits on top of the low bits (R53). -/
theorem RecFormat.two_pow_E {r : RecFormat} (hE : 3 ≤ r.E) : 2 ^ r.E = 8 * 2 ^ (r.E - 3) := by
  rw [show 8 = 2 ^ 3 from rfl, ← pow_add, Nat.add_sub_cancel' hE]

/-- The tag of an exponent field is one of eight (R54). -/
theorem RecFormat.tag_lt_eight {r : RecFormat} {exp : Nat} (hE : 3 ≤ r.E) (h : exp < 2 ^ r.E) : r.tag exp < 8 := by
  rwa [tag_eq, Nat.div_lt_iff_lt_mul (by positivity), ← two_pow_E hE]

/-- A tag on top of low bits fits the exponent field (R53). -/
theorem RecFormat.tag_or_low_lt {r : RecFormat} {tag : Nat} (hE : 3 ≤ r.E) (ht : tag < 8) (x : Nat) :
    (tag <<< (r.E - 3)) ||| r.low x < 2 ^ r.E := by
  have htag : tag <<< (r.E - 3) < 2 ^ r.E := by
    rw [two_pow_E hE, Nat.shiftLeft_eq]
    exact Nat.mul_lt_mul_of_pos_right ht (by positivity)
  have hlow : r.low x < 2 ^ r.E :=
    (Nat.mod_lt _ (by positivity)).trans_le (Nat.pow_le_pow_right Nat.zero_lt_two (Nat.sub_le ..))
  exact Nat.or_lt_two_pow htag hlow

theorem RecFormat.Legal.bounds {r : RecFormat} (h : r.Legal) : 2 ≤ r.s ∧ 4 ≤ r.E := by
  obtain ⟨hs, he, -⟩ := h
  simp only [toIEEEFN_s, toIEEEFN_e] at hs he
  omega

end Sys2Proof

namespace Sys2Proof.Machine

/-- Whatever REC2FN gives with no condition, it composed by `buildValue` (R100). -/
theorem rec2fnUnit_ok {f : IeeeFormat} {strict : Bool} {r v : Nat} (h : rec2fnUnit f strict r = .ok v) :
    ∃ sign exp sig, f.buildValue sign exp sig = .ok v := by
  unfold rec2fnUnit at h
  extract_lets rf fl tag at h
  split at h
  case isTrue =>
    split at h
    · cases h
    · exact ⟨_, _, _, h⟩
  split at h
  case isTrue => exact ⟨_, _, _, h⟩
  split at h
  case isTrue =>
    split at h
    · cases h
    · exact ⟨_, _, _, h⟩
  split at h
  case isTrue =>
    unfold rec2fnSubnormal at h
    extract_lets rf' at h
    split at h
    · cases h
    split at h
    · cases h
    · exact ⟨_, _, _, h⟩
  case isFalse =>
    cases hx : rf.rebiasToIEEE fl.exp with
    | error c => simp [hx, Except.bind] at h
    | ok x => exact ⟨_, _, _, by simpa [hx, Except.bind] using h⟩

/-- Whatever FN2REC gives, it composed by `buildValue` (R120). -/
theorem fn2recUnit_ok {f : IeeeFormat} {v : Nat} {det : Bool} {pay y : Nat} (h : fn2recUnit f v det pay = .ok y) :
    ∃ sign exp sig, f.toRecodedFormat.buildValue sign exp sig = .ok y := by
  unfold fn2recUnit at h
  extract_lets rf fl at h
  split at h
  case isTrue => split at h <;> exact ⟨_, _, _, h⟩
  split at h
  case isTrue => split at h <;> exact ⟨_, _, _, h⟩
  case isFalse => exact ⟨_, _, _, h⟩

theorem rec2fnUnit_lt {f : IeeeFormat} {strict : Bool} {r v : Nat} (hf : f.Legal)
    (h : rec2fnUnit f strict r = .ok v) : v < 2 ^ f.width := by
  obtain ⟨sign, exp, sig, hb⟩ := rec2fnUnit_ok h
  exact buildValue_lt (one_le_two.trans hf.1) hb

theorem fn2recUnit_lt {f : IeeeFormat} {v : Nat} {det : Bool} {pay y : Nat} (hf : f.Legal)
    (h : fn2recUnit f v det pay = .ok y) : y < 2 ^ f.toRecodedFormat.width := by
  obtain ⟨sign, exp, sig, hb⟩ := fn2recUnit_ok h
  exact buildValue_lt (one_le_two.trans hf.1) hb

/-- The count fits the port `n` (R142). -/
theorem clz_lt_two_pow_outputWidth (W x : Nat) : clz W x < 2 ^ clzOutputWidth W :=
  (clz_le W x).trans_lt Nat.lt_log2_self

theorem rec2recArith_lt (a b : RecFormat) (exp : Nat) : rec2recArith a b exp < 2 ^ b.E := by
  have hpos : (0 : Int) < ((2 ^ b.E : Nat) : Int) := by positivity
  have hnonneg := Int.emod_nonneg (rec2recSum a b exp) hpos.ne'
  have hlt := Int.emod_lt_of_pos (rec2recSum a b exp) hpos
  unfold rec2recArith
  omega

theorem rec2recExponent_lt {a b : RecFormat} {exp : Nat} (ha : 3 ≤ a.E) (hb : 3 ≤ b.E) (h : exp < 2 ^ a.E) :
    rec2recExponent a b exp < 2 ^ b.E := by
  unfold rec2recExponent
  extract_lets tag arith
  split
  · exact RecFormat.tag_or_low_lt hb (RecFormat.tag_lt_eight ha h) arith
  · exact rec2recArith_lt a b exp

/-- Realigning a trailing significand at its most significant end keeps it inside the destination's field (R152). -/
theorem rec2recSignificand_lt {a b : RecFormat} {sig : Nat} (ha : 1 ≤ a.s) (hb : 1 ≤ b.s) (h : sig < 2 ^ (a.s - 1)) :
    rec2recSignificand a b sig < 2 ^ (b.s - 1) := by
  rw [rec2recSignificand, Nat.shiftLeft_eq, Nat.shiftRight_eq_div_pow, Nat.div_lt_iff_lt_mul (by positivity)]
  calc sig * 2 ^ b.s < 2 ^ (a.s - 1) * 2 ^ b.s := Nat.mul_lt_mul_of_pos_right h (by positivity)
    _ = 2 ^ (b.s - 1) * 2 ^ a.s := by
      rw [← pow_add, ← pow_add]
      congr 1
      omega

theorem rec2recUnit_lt {a b : RecFormat} {v : Nat} (ha : a.Legal) (hb : b.Legal) (hv : v < 2 ^ a.width) :
    rec2recUnit a b v < 2 ^ b.width := by
  obtain ⟨has, haE⟩ := ha.bounds
  obtain ⟨hbs, hbE⟩ := hb.bounds
  unfold rec2recUnit
  split
  · next hab => exact hab ▸ hv
  · exact concatFields_lt (by omega) (fieldsOf_sign_lt ..)
      (rec2recExponent_lt (by omega) (by omega) (fieldsOf_exp_lt ..))
      (rec2recSignificand_lt (by omega) (by omega) (fieldsOf_sig_lt ..))

/-- The result of a well-formed evaluation fits the unit's data output (R28 to R31). -/
theorem unitResult_lt {i : Instr} {v : Nat} (hw : i.wellFormed = true) (h : unitResult i = .ok v) :
    v < 2 ^ unitOutputWidth i := by
  simp only [Instr.wellFormed, Bool.and_eq_true] at hw
  obtain ⟨hlegal, hfit⟩ := hw
  cases i with
  | rec2fn f strict r => exact rec2fnUnit_lt (of_decide_eq_true hlegal) h
  | fn2rec f x det pay => exact fn2recUnit_lt (of_decide_eq_true hlegal) h
  | clz W x =>
    cases h
    exact clz_lt_two_pow_outputWidth W x
  | rec2rec a b x =>
    cases h
    obtain ⟨ha, hb⟩ := of_decide_eq_true hlegal
    exact rec2recUnit_lt ha hb (of_decide_eq_true hfit)

/-- The result bus is as wide as the data output of each unit of the wrapper (R73). -/
theorem unitOutputWidth_selectUnit_le (p : Params) (w : Inputs) : unitOutputWidth (selectUnit p w) ≤ p.busWidth := by
  unfold selectUnit Params.busWidth
  split
  · simp only [unitOutputWidth, IeeeFormat.width, Params.fmt_e, Params.fmt_s]; omega
  split
  · simp only [unitOutputWidth, IeeeFormat.toRecodedFormat_width, Params.fmt_e, Params.fmt_s]; omega
  split
  · have hlog := Nat.log2_le_self (p.s - 1)
    simp only [unitOutputWidth, clzOutputWidth]; omega
  · simp only [unitOutputWidth, IeeeFormat.toRecodedFormat_width, Params.dstFmt_e, Params.dstFmt_s]; omega

end Sys2Proof.Machine
end

section
/-! SUPPORT. What an evaluation leaves unchanged, the codes it can report, and its refusal of illegal parameters. -/

namespace Sys2Proof

/-- The bounds of R7, read as what an illegal format violates. -/
theorem IeeeFormat.not_legal_iff (f : IeeeFormat) : ¬ f.Legal ↔ f.s < 2 ∨ f.e < 3 ∨ 2 ^ (f.e - 2) + 3 < f.s := by
  simp only [not_and_or, not_le]

end Sys2Proof

namespace Sys2Proof.Machine

/-- The frame of an evaluation (R6, R172): parameters and input ports stay, and only a raised condition draws. -/
theorem exec_frame {i : Instr} {s t : State} (h : exec i s = .next t) :
    t.params = s.params ∧ t.inputs = s.inputs ∧ (t.err = 0#2 → t.draws = s.draws) := by
  obtain ⟨-, ⟨v, -, rfl⟩ | ⟨-, rfl⟩ | ⟨-, rfl⟩⟩ := exec_next h
  · exact ⟨rfl, rfl, fun _ => rfl⟩
  · exact ⟨rfl, rfl, fun herr => absurd herr (by simp)⟩
  · exact ⟨rfl, rfl, fun herr => absurd herr (by simp)⟩

/-- The code 11 is never produced (R171). -/
theorem exec_err_ne_three {i : Instr} {s t : State} (h : exec i s = .next t) : t.err ≠ 3#2 := by
  obtain ⟨-, ⟨v, -, rfl⟩ | ⟨-, rfl⟩ | ⟨-, rfl⟩⟩ := exec_next h <;> simp

/-- Delivered or unspecified, the data an evaluation drives fits the wider of the unit's output and the bus. -/
theorem exec_y_lt {i : Instr} {s t : State} (h : exec i s = .next t) :
    t.y < 2 ^ s.unspecifiedWidth (unitOutputWidth i) := by
  obtain ⟨hw, ⟨v, hv, rfl⟩ | ⟨-, rfl⟩ | ⟨-, rfl⟩⟩ := exec_next h
  · exact (unitResult_lt hw hv).trans_le (Nat.pow_le_pow_right Nat.zero_lt_two (le_max_left ..))
  · exact State.raise_y_lt ..
  · exact State.raise_y_lt ..

/-- In the wrapper the data always fits the result bus (R73). -/
theorem step_y_lt {s t : State} (h : step s = .next t) : t.y < 2 ^ s.params.busWidth := by
  obtain ⟨-, -, hexec⟩ := step_next h
  have hy := exec_y_lt hexec
  rwa [State.unspecifiedWidth, max_eq_right (unitOutputWidth_selectUnit_le ..)] at hy

theorem exec_of_illegal {i : Instr} (s : State) (h : i.legalParams = false) :
    exec i s = .refused .illegalParameters := by
  simp [exec_eq, checked, h]

theorem step_of_illegal {s : State} (h : ¬ s.params.Legal) : step s = .refused .illegalParameters := by
  unfold step decode
  rw [if_neg h]

end Sys2Proof.Machine
end

section
/-! CERTIFICATES. The statements of 00_scope.md. -/

namespace Sys2Proof.Machine

/-- Settles O10: the frame keeps parameters and inputs, every result fits the bus, and no code is 11. -/
theorem stepKeepsStateWellFormed : Obligations.StepKeepsStateWellFormed := by
  rintro s t ⟨hlegal, hfits, -, -⟩ h
  obtain ⟨-, -, hexec⟩ := step_next h
  obtain ⟨hparams, hinputs, -⟩ := exec_frame hexec
  have hy := step_y_lt h
  rw [← hparams] at hlegal hfits hy
  rw [← hinputs] at hfits
  exact ⟨hlegal, hfits, hy, exec_err_ne_three hexec⟩

/-- Settles O55: the two pairings undo each other since a legal `E` is positive, and FN2REC's rebiased exponent lies in the
normal range, where the guard of `rebiasToIEEE` holds. -/
theorem formatPairingAndRebias : Obligations.FormatPairingAndRebias := by
  refine ⟨fun f hf => ⟨hf, rfl⟩, fun r hr => ⟨hr, ?_⟩, fun f x hf hx1 hx2 => ?_⟩
  · obtain ⟨f, -, rfl⟩ := hr.exists_ieee
    rfl
  · obtain ⟨-, hK, he, -, -, -⟩ := hf.powers
    have hrange : 2 ^ (f.e - 1) + 2 ≤ x - 1 + (2 ^ (f.e - 1) + 2) ∧
        x - 1 + (2 ^ (f.e - 1) + 2) ≤ 3 * 2 ^ (f.e - 1) - 1 := by omega
    have hback : x - 1 + (2 ^ (f.e - 1) + 2) - 2 ^ (f.e - 1) - 1 = x := by omega
    simp only [RecFormat.rebiasToIEEE, IeeeFormat.toRecodedFormat_minNormalExponent,
      IeeeFormat.toRecodedFormat_K, if_pos hrange, hback]

/-- Settles O8: the check of R7 comes first in every evaluation and in the wrapper's decoder. -/
theorem illegalParametersAreRefused : Obligations.IllegalParametersAreRefused := by
  intro s
  refine ⟨fun f strict r hf => ?_, fun f v det pay hf => ?_, fun x => ?_, fun a b v hab => ?_, step_of_illegal⟩
  · exact exec_of_illegal s (decide_eq_false (f.not_legal_iff.mpr hf))
  · exact exec_of_illegal s (decide_eq_false (f.not_legal_iff.mpr hf))
  · exact exec_of_illegal s rfl
  · exact exec_of_illegal s (decide_eq_false hab)

/-- Settles O13: the frame of `exec`, read off everything an evaluation can do. -/
theorem evaluationFrame : Obligations.EvaluationFrame := fun _ _ _ => exec_frame

end Sys2Proof.Machine
end

section
/-! SUPPORT. A well-formed evaluation is its unit's result, finished on whatever state it starts from. -/

namespace Sys2Proof.Machine

/-- The unit's result does not mention the state: only `finish` does (R20, R32). -/
theorem exec_of_wellFormed {i : Instr} (s : State) (h : i.wellFormed = true) :
    exec i s = s.finish (unitOutputWidth i) (unitResult i) := by
  rw [exec_eq, checked_of_wellFormed h]

end Sys2Proof.Machine
end

section
/-! CERTIFICATES. The statements of 10_state.md. -/

namespace Sys2Proof.Machine

/-- Settles O14: one unit result, delivered or raised, is finished on both states; only the data of a raised condition is
drawn from the state. -/
theorem outputsDependOnPresentEvaluationOnly : Obligations.OutputsDependOnPresentEvaluationOnly := by
  intro i s s' t h
  obtain ⟨hw, hcases⟩ := exec_next h
  rw [exec_of_wellFormed s' hw]
  obtain ⟨v, hv, rfl⟩ | ⟨he, rfl⟩ | ⟨he, rfl⟩ := hcases
  · exact ⟨s'.deliver v, by rw [hv, State.finish_ok], rfl, fun _ => rfl⟩
  · exact ⟨s'.raise 1#2 (unitOutputWidth i), by rw [he, State.finish_invalidEncoding], rfl,
      fun herr => absurd herr (by simp)⟩
  · exact ⟨s'.raise 2#2 (unitOutputWidth i), by rw [he, State.finish_lossyConversion], rfl,
      fun herr => absurd herr (by simp)⟩

/-- Settles O11: the bounds of R7 on the chosen instance, and zeros on every port. -/
theorem resetStateIsWellFormed : Obligations.ResetStateIsWellFormed := by
  unfold Obligations.ResetStateIsWellFormed
  decide

/-- Settles O12: the input ports at reset select REC2FN on the zero pattern, whose result is zero. -/
theorem resetOutputsMatchInputs : Obligations.ResetOutputsMatchInputs := by
  obtain ⟨hlegal, hfits, -, -⟩ := resetStateIsWellFormed
  calc step State.reset = exec (selectUnit State.reset.params State.reset.inputs) State.reset :=
        step_of_fits hlegal hfits
    _ = exec (.rec2fn .f32 true 0) State.reset := rfl
    _ = .next (State.reset.deliver 0) := rfl
    _ = .next State.reset := rfl

end Sys2Proof.Machine
end

section
/-! SUPPORT. A completed step leaves its instance and inputs in place, so the next one selects the same unit. -/

namespace Sys2Proof.Machine

/-- From the state a step gives, the next step evaluates the same unit on the same operands (R6, R43). -/
theorem step_after_step {s t : State} (h : step s = .next t) :
    step t = exec (selectUnit s.params s.inputs) t := by
  obtain ⟨hlegal, hfits, hexec⟩ := step_next h
  obtain ⟨hparams, hinputs, -⟩ := exec_frame hexec
  rw [← hparams] at hlegal hfits
  rw [← hinputs] at hfits
  rw [step_of_fits hlegal hfits, hparams, hinputs]

end Sys2Proof.Machine
end

section
/-! CERTIFICATES. The statements of 20_memory.md. -/

namespace Sys2Proof.Machine

/-- Settles O15: both steps evaluate one unit, whose outputs do not depend on the state; the frame of the second step fixes
the other fields, the draw counter only when no condition is raised. -/
theorem evaluationIsIdempotent : Obligations.EvaluationIsIdempotent := by
  intro s t h
  obtain ⟨-, -, hfirst⟩ := step_next h
  obtain ⟨u, hsecond, herr, hy⟩ := outputsDependOnPresentEvaluationOnly _ s t t hfirst
  obtain ⟨hparams, hinputs, hdraws⟩ := exec_frame hsecond
  refine ⟨u, (step_after_step h).trans hsecond, hparams, hinputs, herr, fun hnone => ?_⟩
  have hd : u.draws = t.draws := hdraws (herr.trans hnone)
  calc u = ⟨u.params, u.inputs, u.y, u.err, u.draws⟩ := rfl
    _ = t := by rw [hparams, hinputs, hy hnone, herr, hd]

end Sys2Proof.Machine
end

section
/-! SUPPORT. The wrapper's decoder: what it selects, when it accepts, and that `encode` undoes it (R64, R72, R73). -/

namespace Sys2Proof

/-! ### The unit each operation code selects (R72, R73) -/

theorem selectUnit_of_op_zero {w : Inputs} (p : Params) (h : w.op = 0#2) :
    selectUnit p w = .rec2fn p.fmt p.strictZeroTag (w.a % 2 ^ (p.e + p.s + 1)) := by
  simp [selectUnit, h]

theorem selectUnit_of_op_one {w : Inputs} (p : Params) (h : w.op = 1#2) :
    selectUnit p w = .fn2rec p.fmt (w.a % 2 ^ (p.e + p.s)) w.detPayload w.infPayload := by
  simp [selectUnit, h]

theorem selectUnit_of_op_two {w : Inputs} (p : Params) (h : w.op = 2#2) :
    selectUnit p w = .clz (p.s - 1) (w.a % 2 ^ (p.s - 1)) := by
  simp [selectUnit, h]

theorem selectUnit_of_op_three {w : Inputs} (p : Params) (h : w.op = 3#2) :
    selectUnit p w = .rec2rec p.fmt.toRecodedFormat p.dstFmt.toRecodedFormat (w.a % 2 ^ (p.e + p.s + 1)) := by
  simp [selectUnit, h]

/-- All four codes are assigned (R74). -/
theorem op_cases (op : BitVec 2) : op = 0#2 ∨ op = 1#2 ∨ op = 2#2 ∨ op = 3#2 := by
  revert op
  decide

/-- Only operation code 00 selects REC2FN. -/
theorem selectUnit_ne_rec2fn {w : Inputs} (p : Params) (h : w.op ≠ 0#2) (f : IeeeFormat) (strict : Bool) (r : Nat) :
    selectUnit p w ≠ .rec2fn f strict r := by
  obtain h0 | h1 | h2 | h3 := op_cases w.op
  · exact absurd h0 h
  · simp [selectUnit_of_op_one p h1]
  · simp [selectUnit_of_op_two p h2]
  · simp [selectUnit_of_op_three p h3]

theorem onInstance_selectUnit (p : Params) (w : Inputs) : (selectUnit p w).onInstance p = true := by
  obtain h | h | h | h := op_cases w.op
  · simp [selectUnit_of_op_zero p h, Instr.onInstance]
  · simp [selectUnit_of_op_one p h, Instr.onInstance]
  · simp [selectUnit_of_op_two p h, Instr.onInstance]
  · simp [selectUnit_of_op_three p h, Instr.onInstance]

/-- The instance's parameters are legal for each of its units; the counter's width `s - 1` is positive (R7, R73). -/
theorem legalParams_selectUnit {p : Params} (hp : p.Legal) (w : Inputs) : (selectUnit p w).legalParams = true := by
  obtain ⟨hfmt, hdst⟩ := hp
  obtain h | h | h | h := op_cases w.op
  · rw [selectUnit_of_op_zero p h]
    exact decide_eq_true hfmt
  · rw [selectUnit_of_op_one p h]
    exact decide_eq_true hfmt
  · have hW : 1 ≤ p.s - 1 := Nat.le_sub_one_of_lt hfmt.1
    rw [selectUnit_of_op_two p h]
    exact decide_eq_true hW
  · rw [selectUnit_of_op_three p h]
    exact decide_eq_true ⟨hfmt, hdst⟩

/-- Each unit sees a slice of the bus of its own operand width, and the payload port as it is (R64, R73). -/
theorem operandsFit_selectUnit {p : Params} {w : Inputs} (hw : w.Fits p) : (selectUnit p w).operandsFit = true := by
  obtain h | h | h | h := op_cases w.op
  · simp [selectUnit_of_op_zero p h, Instr.operandsFit, Nat.mod_lt]
  · simp [selectUnit_of_op_one p h, Instr.operandsFit, IeeeFormat.width, Nat.mod_lt, hw.2]
  · simp [selectUnit_of_op_two p h, Instr.operandsFit, Nat.mod_lt]
  · simp [selectUnit_of_op_three p h, Instr.operandsFit, Nat.mod_lt]

theorem wellFormed_selectUnit {p : Params} {w : Inputs} (hp : p.Legal) (hw : w.Fits p) :
    (selectUnit p w).wellFormed = true := by
  rw [Instr.wellFormed, legalParams_selectUnit hp w, operandsFit_selectUnit hw, Bool.and_self]

/-! ### The decoder and the encoder -/

/-- The decoder accepts exactly the inputs that fit a legal instance, as the unit they select (R7, R64, R73). -/
theorem decode_eq_ok_iff {p : Params} {w : Inputs} {i : Instr} :
    decode p w = .ok i ↔ p.Legal ∧ w.Fits p ∧ selectUnit p w = i := by
  unfold decode
  split
  · next hp =>
    split
    · next hw => exact ⟨fun h => ⟨hp, hw, Except.ok.inj h⟩, fun ⟨_, _, hi⟩ => congrArg _ hi⟩
    · next hw => exact ⟨nofun, fun ⟨_, hw', _⟩ => absurd hw' hw⟩
  · next hp => exact ⟨nofun, fun ⟨hp', _, _⟩ => absurd hp' hp⟩

/-- The port values of a well-formed evaluation of the instance fit its ports. -/
theorem encode_fits {p : Params} {i : Instr} (hp : p.Legal) (hw : i.wellFormed = true) (hi : i.onInstance p = true) :
    (encode i).Fits p := by
  cases i with
  | rec2fn f strict r => exact Laws.EncodeFits.rec2fn f strict r p hp hw hi
  | fn2rec f v det pay => exact Laws.EncodeFits.fn2rec f v det pay p hp hw hi
  | clz W x => exact Laws.EncodeFits.clz W x p hp hw hi
  | rec2rec a b v => exact Laws.EncodeFits.rec2rec a b v p hp hw hi

/-- The encoded operation code selects the evaluation's own unit, and slicing an operand that fits changes nothing. -/
theorem selectUnit_encode {p : Params} {i : Instr} (hfit : i.operandsFit = true) (hi : i.onInstance p = true) :
    selectUnit p (encode i) = i := by
  cases i with
  | rec2fn f strict r =>
    obtain ⟨rfl, rfl⟩ := of_decide_eq_true hi
    have hr : r < 2 ^ (p.e + p.s + 1) := by simpa [Instr.operandsFit] using hfit
    rw [selectUnit_of_op_zero p rfl, encode, Nat.mod_eq_of_lt hr]
  | fn2rec f v det pay =>
    obtain rfl := of_decide_eq_true hi
    have hv : v < 2 ^ (p.e + p.s) := (of_decide_eq_true hfit).1
    rw [selectUnit_of_op_one p rfl, encode, Nat.mod_eq_of_lt hv]
  | clz W x =>
    obtain rfl := of_decide_eq_true hi
    rw [selectUnit_of_op_two p rfl, encode, Nat.mod_eq_of_lt (of_decide_eq_true hfit)]
  | rec2rec a b v =>
    obtain ⟨rfl, rfl⟩ := of_decide_eq_true hi
    have hv : v < 2 ^ (p.e + p.s + 1) := by simpa [Instr.operandsFit] using hfit
    rw [selectUnit_of_op_three p rfl, encode, Nat.mod_eq_of_lt hv]

end Sys2Proof

namespace Sys2Proof.Machine

theorem exec_of_tooWide {i : Instr} (s : State) (hlegal : i.legalParams = true) (hfit : i.operandsFit = false) :
    exec i s = .refused .operandTooWide := by
  simp [exec_eq, checked, hlegal, hfit]

theorem step_of_tooWide {s : State} (hlegal : s.params.Legal) (hfits : ¬ s.inputs.Fits s.params) :
    step s = .refused .operandTooWide := by
  unfold step decode
  rw [if_pos hlegal, if_neg hfits]

end Sys2Proof.Machine
end

section
/-! CERTIFICATES. The statements of 30_encoding.md about the wrapper's decoder (sections 4 and 5). -/

namespace Sys2Proof.Machine

/-- Settles O3: the encoding of a well-formed evaluation fits the ports, and selects that evaluation. -/
theorem decodeInvertsEncode : Obligations.DecodeInvertsEncode := by
  intro p i hp hw hi
  have hfit : i.operandsFit = true := (Bool.and_eq_true_iff.mp hw).2
  exact decode_eq_ok_iff.mpr ⟨hp, encode_fits hp hw hi, selectUnit_encode hfit hi⟩

/-- Settles O4: what is accepted is the selected unit of a legal instance, so O3 applies to it. -/
theorem decodedEvaluationIsWellFormed : Obligations.DecodedEvaluationIsWellFormed := by
  intro p w i h
  obtain ⟨hp, hfits, rfl⟩ := decode_eq_ok_iff.mp h
  have hw := wellFormed_selectUnit hp hfits
  have hi := onInstance_selectUnit p w
  exact ⟨hw, hi, decodeInvertsEncode p _ hp hw hi⟩

/-- Settles O1: the decoder accepts what fits, as the unit the operation code selects. -/
theorem operationCodesSelectUnits : Obligations.OperationCodesSelectUnits := by
  intro p w hp hw
  have hdecode : decode p w = .ok (selectUnit p w) := decode_eq_ok_iff.mpr ⟨hp, hw, rfl⟩
  rw [hdecode]
  exact ⟨fun h => congrArg _ (selectUnit_of_op_zero p h), fun h => congrArg _ (selectUnit_of_op_one p h),
    fun h => congrArg _ (selectUnit_of_op_two p h), fun h => congrArg _ (selectUnit_of_op_three p h)⟩

/-- Settles O2: five fixed words, read on the instance of `Config.resetParams`. -/
theorem opcodeTableWordsDecode : Obligations.OpcodeTableWordsDecode := ⟨rfl, rfl, rfl, rfl, rfl⟩

/-- Settles O5: what the decoder accepts is the unit a step evaluates. -/
theorem stepRunsDecodedEvaluation : Obligations.StepRunsDecodedEvaluation := by
  intro s i h
  obtain ⟨hlegal, hfits, rfl⟩ := decode_eq_ok_iff.mp h
  exact step_of_fits hlegal hfits

/-- Settles O7: a legal unit checks its operands, and a legal instance its ports, before anything is evaluated. -/
theorem valueWiderThanPortIsRefused : Obligations.ValueWiderThanPortIsRefused := by
  intro s
  refine ⟨fun f strict r hf hr => ?_, fun f v det pay hf hwide => ?_, fun W x hW hx => ?_,
    fun a b v ha hb hv => ?_, step_of_tooWide⟩
  · have hr' : ¬ r < 2 ^ f.toRecodedFormat.width := by rwa [f.toRecodedFormat_width, not_lt]
    exact exec_of_tooWide s (decide_eq_true hf) (decide_eq_false hr')
  · have hwide' : ¬ (v < 2 ^ f.width ∧ pay < 2 ^ (f.s - 1)) := by rwa [not_and_or, not_lt, not_lt]
    exact exec_of_tooWide s (decide_eq_true hf) (decide_eq_false hwide')
  · exact exec_of_tooWide s (decide_eq_true hW) (decide_eq_false (not_lt.mpr hx))
  · exact exec_of_tooWide s (decide_eq_true ⟨ha, hb⟩) (decide_eq_false (not_lt.mpr hv))

end Sys2Proof.Machine
end

section
/-! SUPPORT. The recoded exponent line: each tag as a range of exponents (R54, R55, R57). -/

namespace Sys2Proof

/-- A tag is a block of `2^(E-3)` consecutive exponents (R54). -/
theorem RecFormat.tag_eq_iff (r : RecFormat) (exp k : Nat) :
    r.tag exp = k ↔ k * 2 ^ (r.E - 3) ≤ exp ∧ exp < (k + 1) * 2 ^ (r.E - 3) := by
  have hpos : 0 < 2 ^ (r.E - 3) := by positivity
  rw [tag_eq, ← Nat.le_div_iff_mul_le hpos, ← Nat.div_lt_iff_lt_mul hpos]
  omega

theorem RecFormat.tag_eq_zero_iff (r : RecFormat) (exp : Nat) : r.tag exp = 0 ↔ exp < 2 ^ (r.E - 3) := by
  simp [tag_eq_iff]

theorem RecFormat.normalTag_iff (r : RecFormat) (exp : Nat) :
    r.NormalTag exp ↔ 2 ^ (r.E - 3) ≤ exp ∧ exp < 6 * 2 ^ (r.E - 3) := by
  have hpos : 0 < 2 ^ (r.E - 3) := by positivity
  rw [NormalTag, tag_eq, Nat.le_div_iff_mul_le hpos, one_mul, ← Nat.div_lt_iff_lt_mul hpos]
  omega

/-- Tag 7 reaches to the end of the exponent line. -/
theorem RecFormat.tag_eq_seven_iff {r : RecFormat} {exp : Nat} (hE : 3 ≤ r.E) (h : exp < 2 ^ r.E) :
    r.tag exp = 7 ↔ 7 * 2 ^ (r.E - 3) ≤ exp := by
  rw [two_pow_E hE] at h
  rw [tag_eq_iff]
  omega

/-- A tag is 0, 6 or 7, or one of 1 to 5 (R55). -/
theorem RecFormat.tag_cases {r : RecFormat} {exp : Nat} (hE : 3 ≤ r.E) (h : exp < 2 ^ r.E) :
    r.tag exp = 0 ∨ r.tag exp = 6 ∨ r.tag exp = 7 ∨ r.NormalTag exp := by
  have h8 := tag_lt_eight hE h
  omega

theorem IeeeFormat.three_le_toRecodedFormat_E {f : IeeeFormat} (hf : f.Legal) : 3 ≤ f.toRecodedFormat.E :=
  hf.2.1.trans (Nat.le_succ _)

theorem IeeeFormat.normalTag_toRecodedFormat_iff (f : IeeeFormat) (exp : Nat) :
    f.toRecodedFormat.NormalTag exp ↔ 2 ^ (f.e - 2) ≤ exp ∧ exp < 6 * 2 ^ (f.e - 2) := by
  simp only [RecFormat.normalTag_iff, f.toRecodedFormat_E, Nat.reduceSubDiff]

/-- The exponent fields of R80 and R81 are different ones. -/
theorem IeeeFormat.zero_ne_ones {f : IeeeFormat} (hf : f.Legal) : 0 ≠ 2 ^ f.e - 1 := by
  obtain ⟨hq, -, he, -, -, -⟩ := hf.powers
  omega

/-- An IEEE exponent field is zero, in the normal range, or all ones (R51). -/
theorem IeeeFormat.exp_cases {f : IeeeFormat} {exp : Nat} (h : exp < 2 ^ f.e) :
    exp = 0 ∨ (1 ≤ exp ∧ exp ≤ 2 ^ f.e - 2) ∨ exp = 2 ^ f.e - 1 := by omega

end Sys2Proof
end

section
/-! SUPPORT. What it means that an IEEE value and a recoded value stand for the same thing, and that both converters relate
their input and output so; classes and numbers follow from it alone (R52, R56, R59). -/

namespace Sys2Proof

/-! ### The relation -/

/-- Exponent and trailing significand of an IEEE value (`i`) and of a recoded one (`r`) stand for the same magnitude,
class by class. REC2FN accepts several recoded zeros and infinities, so those are given by tag alone (R103, R104,
log 7). -/
inductive SameMagnitude (f : IeeeFormat) (i r : Fields) : Prop where
  | zero (hexp : i.exp = 0) (hsig : i.sig = 0) (htag : f.toRecodedFormat.tag r.exp = 0)
  /-- The recoded significand, with its implicit one, is the IEEE one shifted to the top (R107, R122). -/
  | subnormal (hexp : i.exp = 0) (htag : f.toRecodedFormat.NormalTag r.exp)
      (hlow : f.toRecodedFormat.minSubnormalExponent < r.exp) (hhigh : r.exp < f.toRecodedFormat.minNormalExponent)
      (hsig : 2 ^ (f.s - 1) + r.sig = i.sig * 2 ^ (f.toRecodedFormat.minNormalExponent - r.exp))
  | normal (hlow : 1 ≤ i.exp) (hhigh : i.exp ≤ 2 ^ f.e - 2) (htag : f.toRecodedFormat.NormalTag r.exp)
      (hexp : r.exp + 1 = i.exp + f.toRecodedFormat.minNormalExponent) (hsig : r.sig = i.sig)
  | infinity (hexp : i.exp = 2 ^ f.e - 1) (hsig : i.sig = 0) (htag : f.toRecodedFormat.tag r.exp = 6)
  | nan (hexp : i.exp = 2 ^ f.e - 1) (hnz : i.sig ≠ 0) (htag : f.toRecodedFormat.tag r.exp = 7) (hsig : r.sig = i.sig)

/-- The recoded fields `r` are a recoding of the IEEE fields `i`: the same sign and the same magnitude. -/
structure Recodes (f : IeeeFormat) (i r : Fields) : Prop where
  sign : r.sign = i.sign
  magnitude : SameMagnitude f i r

/-- Nothing under tags 1 to 5 up to the lowest exponent of the band stands for an IEEE value (R106, R107). -/
theorem SameMagnitude.minSubnormalExponent_lt {f : IeeeFormat} {i r : Fields} (hf : f.Legal)
    (h : SameMagnitude f i r) (htag : f.toRecodedFormat.NormalTag r.exp) :
    f.toRecodedFormat.minSubnormalExponent < r.exp := by
  cases h with
  | zero hexp hsig h0 => omega
  | subnormal hexp htag' hlow hhigh hsig => exact hlow
  | normal hlow hhigh htag' hexp hsig =>
    obtain ⟨hq, hK, -, -, hs, -⟩ := hf.powers
    have hmin := f.toRecodedFormat_minNormalExponent
    have hminSub := f.toRecodedFormat_minSubnormalExponent
    omega
  | infinity hexp hsig h6 => omega
  | nan hexp hnz h7 hsig => omega

/-! ### Classes (R52, R56) -/

theorem RecFormat.classify_of_tag_zero {r : RecFormat} {v : Nat} (h : r.tag (r.fields v).exp = 0) :
    r.classify v = .zero := by simp [classify, h]

theorem RecFormat.classify_of_tag_six {r : RecFormat} {v : Nat} (h : r.tag (r.fields v).exp = 6) :
    r.classify v = .infinity := by simp [classify, h]

theorem RecFormat.classify_of_tag_seven {r : RecFormat} {v : Nat} (h : r.tag (r.fields v).exp = 7) :
    r.classify v = .nan := by simp [classify, h]

/-- Under tags 1 to 5 the threshold alone decides. -/
theorem RecFormat.classify_of_normalTag {r : RecFormat} {v : Nat} (h : r.NormalTag (r.fields v).exp) :
    r.classify v = if (r.fields v).exp < r.minNormalExponent then .subnormal else .normal := by
  obtain ⟨h1, h5⟩ := h
  have h0 : r.tag (r.fields v).exp ≠ 0 := by omega
  have h6 : r.tag (r.fields v).exp ≠ 6 := by omega
  have h7 : r.tag (r.fields v).exp ≠ 7 := by omega
  simp [classify, h0, h6, h7]

theorem IeeeFormat.classify_of_exp_zero {f : IeeeFormat} {v : Nat} (hf : f.Legal) (h : (f.fields v).exp = 0) :
    f.classify v = if (f.fields v).sig = 0 then .zero else .subnormal := by
  simp [classify, isInfinityOrNaN, isZeroOrSubnormal, h, f.zero_ne_ones hf]

theorem IeeeFormat.classify_of_exp_ones {f : IeeeFormat} {v : Nat} (h : (f.fields v).exp = 2 ^ f.e - 1) :
    f.classify v = if (f.fields v).sig = 0 then .infinity else .nan := by
  simp [classify, isInfinityOrNaN, h]

theorem IeeeFormat.classify_of_exp_between {f : IeeeFormat} {v : Nat} (h1 : 1 ≤ (f.fields v).exp)
    (h2 : (f.fields v).exp ≤ 2 ^ f.e - 2) : f.classify v = .normal := by
  have hzero : (f.fields v).exp ≠ 0 := by omega
  have hones : (f.fields v).exp ≠ 2 ^ f.e - 1 := by omega
  simp [classify, isInfinityOrNaN, isZeroOrSubnormal, hzero, hones]

/-- The shifted significand of a subnormal keeps its leading one, so it is not zero. -/
theorem sig_ne_zero_of_shift {p sig sig' k : Nat} (h : 2 ^ p + sig' = sig * 2 ^ k) : sig ≠ 0 := by
  rintro rfl
  have hpos : 0 < 2 ^ p := by positivity
  omega

theorem SameMagnitude.classify_eq {f : IeeeFormat} {v r : Nat} (hf : f.Legal)
    (h : SameMagnitude f (f.fields v) (f.toRecodedFormat.fields r)) :
    f.toRecodedFormat.classify r = f.classify v := by
  cases h with
  | zero hexp hsig htag =>
    rw [RecFormat.classify_of_tag_zero htag, IeeeFormat.classify_of_exp_zero hf hexp, if_pos hsig]
  | subnormal hexp htag hlow hhigh hsig =>
    rw [RecFormat.classify_of_normalTag htag, if_pos hhigh, IeeeFormat.classify_of_exp_zero hf hexp,
      if_neg (sig_ne_zero_of_shift hsig)]
  | normal hlow hhigh htag hexp hsig =>
    rw [RecFormat.classify_of_normalTag htag, if_neg (by omega), IeeeFormat.classify_of_exp_between hlow hhigh]
  | infinity hexp hsig htag =>
    rw [RecFormat.classify_of_tag_six htag, IeeeFormat.classify_of_exp_ones hexp, if_pos hsig]
  | nan hexp hnz htag hsig =>
    rw [RecFormat.classify_of_tag_seven htag, IeeeFormat.classify_of_exp_ones hexp, if_neg hnz]

/-! ### Numbers (R59) -/

/-- Shifting a significand up by `k` and lowering its exponent by `k` keeps the value: R59's two formulas agree. -/
theorem shifted_significand_value {p sig sig' k : Nat} (b : ℤ) (h : 2 ^ p + sig' = sig * 2 ^ k) :
    (2 : ℚ) ^ (b - k) * (1 + (sig' : ℚ) / 2 ^ p) = 2 ^ b * ((sig : ℚ) / 2 ^ p) := by
  have hq : (2 : ℚ) ^ p + sig' = sig * 2 ^ k := by exact_mod_cast h
  have hp : (2 : ℚ) ^ p ≠ 0 := by positivity
  calc (2 : ℚ) ^ (b - k) * (1 + (sig' : ℚ) / 2 ^ p)
      = 2 ^ b / 2 ^ k * ((2 ^ p + sig') / 2 ^ p) := by
        rw [zpow_sub₀ two_ne_zero, zpow_natCast, add_div, div_self hp]
    _ = 2 ^ b * ((sig : ℚ) / 2 ^ p) := by
        rw [hq]
        field_simp

/-- One formula for all of tags 1 to 5, either side of the threshold (R59). -/
theorem RecFormat.denote_of_normalTag {r : RecFormat} {v : Nat} (h : r.NormalTag (r.fields v).exp) :
    r.denote v = some (signFactor (r.fields v).sign *
      (2 ^ (((r.fields v).exp : ℤ) - 2 ^ (r.E - 1)) * (1 + ((r.fields v).sig : ℚ) / 2 ^ (r.s - 1)))) := by
  rw [denote, classify_of_normalTag h, ← mul_assoc]
  by_cases hlt : (r.fields v).exp < r.minNormalExponent
  · simp only [if_pos hlt]
  · simp only [if_neg hlt]

theorem IeeeFormat.denote_of_subnormal {f : IeeeFormat} {v : Nat} (h : f.classify v = .subnormal) :
    f.denote v = some (signFactor (f.fields v).sign *
      (2 ^ (1 - f.bias) * (((f.fields v).sig : ℚ) / 2 ^ (f.s - 1)))) := by
  rw [denote, h, ← mul_assoc]

theorem IeeeFormat.denote_of_normal {f : IeeeFormat} {v : Nat} (h : f.classify v = .normal) :
    f.denote v = some (signFactor (f.fields v).sign *
      (2 ^ (((f.fields v).exp : ℤ) - f.bias) * (1 + ((f.fields v).sig : ℚ) / 2 ^ (f.s - 1)))) := by
  rw [denote, h, ← mul_assoc]

/-- The recoded bias `2^e` seen from the IEEE bias: the two exponent scales differ by `minNormalExponent - 1` (R58, R59). -/
theorem IeeeFormat.two_pow_e_eq_bias {f : IeeeFormat} (hf : f.Legal) :
    (2 : ℤ) ^ f.e = f.toRecodedFormat.minNormalExponent - 1 + f.bias := by
  obtain ⟨-, hK, he, -, -, -⟩ := hf.powers
  have hpow : (2 : ℤ) ^ f.e = 2 * 2 ^ (f.e - 1) := by exact_mod_cast (by omega : 2 ^ f.e = 2 * 2 ^ (f.e - 1))
  rw [f.toRecodedFormat_minNormalExponent, bias, hpow]
  push_cast
  ring

theorem Recodes.denote_eq {f : IeeeFormat} {v r : Nat} (hf : f.Legal)
    (h : Recodes f (f.fields v) (f.toRecodedFormat.fields r)) :
    f.toRecodedFormat.denote r = f.denote v := by
  obtain ⟨hsign, hmag⟩ := h
  have hclass := hmag.classify_eq hf
  have hbias := f.two_pow_e_eq_bias hf
  cases hmag with
  | zero hexp hsig htag =>
    have hzero := RecFormat.classify_of_tag_zero htag
    simp only [RecFormat.denote, IeeeFormat.denote, ← hclass, hzero]
  | subnormal hexp htag hlow hhigh hsig =>
    have hsub : f.classify v = .subnormal := by rw [← hclass, RecFormat.classify_of_normalTag htag, if_pos hhigh]
    have hscale : ((f.toRecodedFormat.fields r).exp : ℤ) - 2 ^ (f.toRecodedFormat.E - 1) = 1 - f.bias -
        ((f.toRecodedFormat.minNormalExponent - (f.toRecodedFormat.fields r).exp : ℕ) : ℤ) := by
      rw [f.toRecodedFormat_E, Nat.add_sub_cancel, hbias, Nat.cast_sub hhigh.le]
      ring
    rw [RecFormat.denote_of_normalTag htag, IeeeFormat.denote_of_subnormal hsub, hsign, hscale,
      f.toRecodedFormat_s, shifted_significand_value _ hsig]
  | normal hlow hhigh htag hexp hsig =>
    have hscale : ((f.toRecodedFormat.fields r).exp : ℤ) - 2 ^ (f.toRecodedFormat.E - 1) =
        (f.fields v).exp - f.bias := by
      rw [f.toRecodedFormat_E, Nat.add_sub_cancel, hbias]
      omega
    rw [RecFormat.denote_of_normalTag htag, IeeeFormat.denote_of_normal (IeeeFormat.classify_of_exp_between hlow hhigh),
      hsign, hscale, hsig, f.toRecodedFormat_s]
  | infinity hexp hsig htag =>
    have hinf := RecFormat.classify_of_tag_six htag
    simp only [RecFormat.denote, IeeeFormat.denote, ← hclass, hinf]
  | nan hexp hnz htag hsig =>
    have hnan := RecFormat.classify_of_tag_seven htag
    simp only [RecFormat.denote, IeeeFormat.denote, ← hclass, hnan]

end Sys2Proof
end

section
/-! SUPPORT. FN2REC gives a recoding of its input; REC2FN gives a value that its input recodes, or reports a condition;
neither meets the guard of R85 or R87 (R60, R61, R90, R100, R120). -/

namespace Sys2Proof

/-- Fields that fit are composed into a value with those fields (R63, R85). -/
theorem exists_buildValue_eq_ok {X s sign exp sig : Nat} (hs : 1 ≤ s) (hsign : sign < 2) (hexp : exp < 2 ^ X)
    (hsig : sig < 2 ^ (s - 1)) :
    ∃ y, buildValue X s sign exp sig = .ok y ∧ fieldsOf X s y = { sign := sign, exp := exp, sig := sig } :=
  ⟨_, buildValue_of_fits hsign hexp hsig, fieldsOf_concatFields hs hsign hexp hsig⟩

/-- Composing recoded fields of the same magnitude as `i`, under its sign, gives a recoding of `i`. -/
theorem SameMagnitude.exists_recoded {f : IeeeFormat} {i : Fields} {exp sig : Nat} (hf : f.Legal) (hsign : i.sign < 2)
    (hexp : exp < 2 ^ (f.e + 1)) (hsig : sig < 2 ^ (f.s - 1)) (h : SameMagnitude f i ⟨i.sign, exp, sig⟩) :
    ∃ y, f.toRecodedFormat.buildValue i.sign exp sig = .ok y ∧ Recodes f i (f.toRecodedFormat.fields y) := by
  obtain ⟨y, hy, hfields⟩ := exists_buildValue_eq_ok (one_le_two.trans hf.1) hsign hexp hsig
  have hfields' : f.toRecodedFormat.fields y = ⟨i.sign, exp, sig⟩ := hfields
  exact ⟨y, hy, by rw [hfields'], by rwa [hfields']⟩

/-- Composing IEEE fields of the same magnitude as `r`, under its sign, gives a value that `r` recodes. -/
theorem SameMagnitude.exists_ieee {f : IeeeFormat} {r : Fields} {exp sig : Nat} (hf : f.Legal) (hsign : r.sign < 2)
    (hexp : exp < 2 ^ f.e) (hsig : sig < 2 ^ (f.s - 1)) (h : SameMagnitude f ⟨r.sign, exp, sig⟩ r) :
    ∃ y, f.buildValue r.sign exp sig = .ok y ∧ Recodes f (f.fields y) r := by
  obtain ⟨y, hy, hfields⟩ := exists_buildValue_eq_ok (one_le_two.trans hf.1) hsign hexp hsig
  have hfields' : f.fields y = ⟨r.sign, exp, sig⟩ := hfields
  exact ⟨y, hy, by rw [hfields'], by rwa [hfields']⟩

/-- A categorical exponent field, a tag with zero `low` bits, has that tag (R88, R89). -/
theorem IeeeFormat.tag_shiftLeft (f : IeeeFormat) (tag : Nat) :
    f.toRecodedFormat.tag (tag <<< (f.toRecodedFormat.E - 3)) = tag := by
  rw [RecFormat.tag, Nat.shiftLeft_shiftRight]

theorem IeeeFormat.tag_shiftLeft_lt {f : IeeeFormat} (hf : f.Legal) {tag : Nat} (h : tag < 8) :
    tag <<< (f.toRecodedFormat.E - 3) < 2 ^ (f.e + 1) := by
  simpa [RecFormat.low] using RecFormat.tag_or_low_lt (f.three_le_toRecodedFormat_E hf) h 0

end Sys2Proof

namespace Sys2Proof.Machine

/-! ### FN2REC -/

/-- Shifting by one more than the count brings the leading one just above the field (R140). -/
theorem shift_past_leadingOne {W x : Nat} (hx : x < 2 ^ W) (h0 : x ≠ 0) :
    2 ^ W ≤ x * 2 ^ (clz W x + 1) ∧ x * 2 ^ (clz W x + 1) < 2 ^ (W + 1) := by
  induction W with
  | zero => simp at hx; omega
  | succ W ih =>
    rw [clz_succ]
    cases hb : x.testBit W with
    | true =>
      have hge := Nat.ge_two_pow_of_testBit hb
      simp only [if_true, pow_succ] at hx ⊢
      omega
    | false =>
      obtain ⟨hlow, hhigh⟩ := ih (lt_two_pow_of_testBit_false hx hb)
      simp only [Bool.false_eq_true, if_false]
      rw [pow_succ 2 (clz W x + 1), ← mul_assoc, pow_succ 2 W, pow_succ 2 (W + 1)]
      omega

/-! One equation per branch of FN2REC (R120 to R124). -/

theorem fn2recUnit_of_infinity {f : IeeeFormat} {v : Nat} (det : Bool) (pay : Nat) (hexp : (f.fields v).exp = 2 ^ f.e - 1)
    (hsig : (f.fields v).sig = 0) :
    fn2recUnit f v det pay = f.toRecodedFormat.makeInfinity (f.fields v).sign (if det then 0 else pay) := by
  simp [fn2recUnit, IeeeFormat.isInfinityOrNaN, hexp, hsig]

theorem fn2recUnit_of_nan {f : IeeeFormat} {v : Nat} (det : Bool) (pay : Nat) (hs : 2 ≤ f.s)
    (hexp : (f.fields v).exp = 2 ^ f.e - 1) (hsig : (f.fields v).sig ≠ 0) :
    fn2recUnit f v det pay = f.toRecodedFormat.buildValue (f.fields v).sign (7 <<< (f.toRecodedFormat.E - 3))
      (f.fields v).sig := by
  have hquiet := or_quietBit hs (fieldsOf_sig_lt f.e f.s v)
  simp only [fn2recUnit, IeeeFormat.isInfinityOrNaN, hexp, beq_self_eq_true, if_true, if_neg hsig]
  exact congrArg _ hquiet

theorem fn2recUnit_of_zero {f : IeeeFormat} {v : Nat} (det : Bool) (pay : Nat) (hf : f.Legal)
    (hexp : (f.fields v).exp = 0) (hsig : (f.fields v).sig = 0) :
    fn2recUnit f v det pay = f.toRecodedFormat.buildValue (f.fields v).sign 0 0 := by
  simp [fn2recUnit, IeeeFormat.isInfinityOrNaN, IeeeFormat.isZeroOrSubnormal, hexp, hsig, f.zero_ne_ones hf]

theorem fn2recUnit_of_subnormal {f : IeeeFormat} {v : Nat} (det : Bool) (pay : Nat) (hf : f.Legal)
    (hexp : (f.fields v).exp = 0) (hsig : (f.fields v).sig ≠ 0) :
    fn2recUnit f v det pay = fn2recSubnormal f (f.fields v) := by
  simp [fn2recUnit, IeeeFormat.isInfinityOrNaN, IeeeFormat.isZeroOrSubnormal, hexp, hsig, f.zero_ne_ones hf]

theorem fn2recUnit_of_normal {f : IeeeFormat} {v : Nat} (det : Bool) (pay : Nat) (hlow : 1 ≤ (f.fields v).exp)
    (hhigh : (f.fields v).exp ≤ 2 ^ f.e - 2) :
    fn2recUnit f v det pay = f.toRecodedFormat.buildValue (f.fields v).sign
      ((f.fields v).exp - 1 + f.toRecodedFormat.minNormalExponent) (f.fields v).sig := by
  have hzero : (f.fields v).exp ≠ 0 := by omega
  have hones : (f.fields v).exp ≠ 2 ^ f.e - 1 := by omega
  simp only [fn2recUnit, IeeeFormat.isInfinityOrNaN, IeeeFormat.isZeroOrSubnormal, beq_iff_eq, hzero, hones, if_false]

theorem fn2recSubnormal_eq (f : IeeeFormat) (i : Fields) :
    fn2recSubnormal f i = f.toRecodedFormat.buildValue i.sign (2 ^ (f.e - 1) + 1 - clz (f.s - 1) i.sig)
      (i.sig * 2 ^ (clz (f.s - 1) i.sig + 1) % 2 ^ (f.s - 1)) := by
  simp [fn2recSubnormal, Nat.shiftLeft_eq]

/-- The subnormal branch of FN2REC normalises: leading one implicit, exponent lowered by the count (R122). -/
theorem fn2recSubnormal_recodes {f : IeeeFormat} {i : Fields} (hf : f.Legal) (hsign : i.sign < 2) (hexp : i.exp = 0)
    (hsig : i.sig < 2 ^ (f.s - 1)) (hnz : i.sig ≠ 0) :
    ∃ y, fn2recSubnormal f i = .ok y ∧ Recodes f i (f.toRecodedFormat.fields y) := by
  obtain ⟨hq, hK, -, hE, hs, hbound⟩ := hf.powers
  have hn := clz_lt_of_ne_zero hsig hnz
  obtain ⟨hone, htop⟩ := shift_past_leadingOne hsig hnz
  have hmin := f.toRecodedFormat_minNormalExponent
  have hminSub := f.toRecodedFormat_minSubnormalExponent
  rw [fn2recSubnormal_eq]
  generalize clz (f.s - 1) i.sig = n at hn hone htop ⊢
  have htag : f.toRecodedFormat.NormalTag (2 ^ (f.e - 1) + 1 - n) := by
    rw [f.normalTag_toRecodedFormat_iff]
    omega
  have hshift : f.toRecodedFormat.minNormalExponent - (2 ^ (f.e - 1) + 1 - n) = n + 1 := by omega
  have hmod : 2 ^ (f.s - 1) + i.sig * 2 ^ (n + 1) % 2 ^ (f.s - 1) = i.sig * 2 ^ (n + 1) := by
    rw [Nat.mod_eq_sub_mod hone, Nat.mod_eq_of_lt (by rw [pow_succ 2 (f.s - 1)] at htop; omega)]
    omega
  exact SameMagnitude.exists_recoded hf hsign (by omega) (Nat.mod_lt _ (by positivity))
    (.subnormal hexp htag (by dsimp only; omega) (by dsimp only; omega) (by dsimp only; rw [hshift, hmod]))

/-- FN2REC gives a recoding of every input, and never meets a guard (R90, R126). -/
theorem fn2recUnit_recodes {f : IeeeFormat} {pay : Nat} (v : Nat) (det : Bool) (hf : f.Legal) (hpay : pay < 2 ^ (f.s - 1)) :
    ∃ y, fn2recUnit f v det pay = .ok y ∧ Recodes f (f.fields v) (f.toRecodedFormat.fields y) := by
  have hsign : (f.fields v).sign < 2 := fieldsOf_sign_lt ..
  have hexp : (f.fields v).exp < 2 ^ f.e := fieldsOf_exp_lt ..
  have hsig : (f.fields v).sig < 2 ^ (f.s - 1) := fieldsOf_sig_lt ..
  have hpos : 0 < 2 ^ (f.s - 1) := by positivity
  obtain hzero | ⟨hlow, hhigh⟩ | hones := f.exp_cases hexp
  · by_cases hz : (f.fields v).sig = 0
    · rw [fn2recUnit_of_zero det pay hf hzero hz]
      exact SameMagnitude.exists_recoded hf hsign (by positivity) hpos (.zero hzero hz (by simp [RecFormat.tag]))
    · rw [fn2recUnit_of_subnormal det pay hf hzero hz]
      exact fn2recSubnormal_recodes hf hsign hzero hsig hz
  · obtain ⟨hq, hK, he, hE, -, -⟩ := hf.powers
    have hmin := f.toRecodedFormat_minNormalExponent
    have htag : f.toRecodedFormat.NormalTag ((f.fields v).exp - 1 + f.toRecodedFormat.minNormalExponent) := by
      rw [f.normalTag_toRecodedFormat_iff]
      omega
    rw [fn2recUnit_of_normal det pay hlow hhigh]
    exact SameMagnitude.exists_recoded hf hsign (by omega) hsig (.normal hlow hhigh htag (by dsimp only; omega) rfl)
  · by_cases hz : (f.fields v).sig = 0
    · have hport : (if det then 0 else pay) < 2 ^ (f.s - 1) := by split <;> assumption
      rw [fn2recUnit_of_infinity det pay hones hz]
      exact SameMagnitude.exists_recoded hf hsign (f.tag_shiftLeft_lt hf (by decide)) hport
        (.infinity hones hz (f.tag_shiftLeft 6))
    · rw [fn2recUnit_of_nan det pay hf.1 hones hz]
      exact SameMagnitude.exists_recoded hf hsign (f.tag_shiftLeft_lt hf (by decide)) hsig
        (.nan hones hz (f.tag_shiftLeft 7) rfl)

/-! ### REC2FN -/

/-! One equation per branch of REC2FN (R102 to R109). -/

theorem rec2fnUnit_of_tag_zero {f : IeeeFormat} {r : Nat} (strict : Bool)
    (h : f.toRecodedFormat.tag (f.toRecodedFormat.fields r).exp = 0) :
    rec2fnUnit f strict r =
      if strict = true ∧ (f.toRecodedFormat.fields r).sig ≠ 0 then .error .invalidEncoding
      else f.buildValue (f.toRecodedFormat.fields r).sign 0 0 := if_pos h

theorem rec2fnUnit_of_tag_six {f : IeeeFormat} {r : Nat} (strict : Bool)
    (h : f.toRecodedFormat.tag (f.toRecodedFormat.fields r).exp = 6) :
    rec2fnUnit f strict r = f.makeInfinity (f.toRecodedFormat.fields r).sign := by
  simp [rec2fnUnit, h]

theorem rec2fnUnit_of_tag_seven {f : IeeeFormat} {r : Nat} (strict : Bool)
    (h : f.toRecodedFormat.tag (f.toRecodedFormat.fields r).exp = 7) :
    rec2fnUnit f strict r =
      if (f.toRecodedFormat.fields r).sig = 0 then .error .invalidEncoding
      else f.makeNaN (f.toRecodedFormat.fields r).sign (f.toRecodedFormat.fields r).sig := by
  simp [rec2fnUnit, h]

/-- Under tags 1 to 5 the threshold decides, and from it upwards the rebias is in range (R87, R106, R109). -/
theorem rec2fnUnit_of_normalTag {f : IeeeFormat} {r : Nat} (strict : Bool) (hf : f.Legal)
    (h : f.toRecodedFormat.NormalTag (f.toRecodedFormat.fields r).exp) :
    rec2fnUnit f strict r =
      if (f.toRecodedFormat.fields r).exp < f.toRecodedFormat.minNormalExponent then
        rec2fnSubnormal f (f.toRecodedFormat.fields r)
      else f.buildValue (f.toRecodedFormat.fields r).sign
        ((f.toRecodedFormat.fields r).exp - f.toRecodedFormat.K - 1) (f.toRecodedFormat.fields r).sig := by
  obtain ⟨-, hK, -, -, -, -⟩ := hf.powers
  have hrange := (f.normalTag_toRecodedFormat_iff _).mp h
  have hrK := f.toRecodedFormat_K
  obtain ⟨h1, h5⟩ := h
  unfold rec2fnUnit
  rw [if_neg (by omega), if_neg (by omega), if_neg (by omega)]
  split
  · rfl
  · next hlow =>
    rw [RecFormat.rebiasToIEEE, if_pos (by omega), Except.bind]

theorem rec2fnSubnormal_eq {f : IeeeFormat} {r : Fields} (hsig : r.sig < 2 ^ (f.s - 1)) :
    rec2fnSubnormal f r =
      if r.exp < f.toRecodedFormat.minSubnormalExponent then .error .invalidEncoding
      else if (2 ^ (f.s - 1) + r.sig) % 2 ^ (f.toRecodedFormat.minNormalExponent - r.exp) ≠ 0 then .error .lossyConversion
      else f.buildValue r.sign 0 ((2 ^ (f.s - 1) + r.sig) / 2 ^ (f.toRecodedFormat.minNormalExponent - r.exp)) := by
  simp only [rec2fnSubnormal, or_implicitBit hsig, Nat.shiftRight_eq_div_pow]

/-- A significand with its leading one at the top is no multiple of `2^s`, so a lossless shift is shorter (R107). -/
theorem lt_of_significand_mod_eq_zero {s sig k : Nat} (hs : 1 ≤ s) (hsig : sig < 2 ^ (s - 1))
    (h : (2 ^ (s - 1) + sig) % 2 ^ k = 0) : k < s := by
  have hpos : 0 < 2 ^ (s - 1) := by positivity
  have hle : 2 ^ k ≤ 2 ^ (s - 1) + sig := Nat.le_of_dvd (by omega) (Nat.dvd_of_mod_eq_zero h)
  have hlt : 2 ^ k < 2 ^ s := by
    rw [show s = s - 1 + 1 by omega, pow_succ]
    omega
  exact (Nat.pow_lt_pow_iff_right (by decide)).mp hlt

/-- A positive shift brings the implicit one into the trailing significand (R108). -/
theorem shifted_significand_lt {s sig k : Nat} (hsig : sig < 2 ^ (s - 1)) (hk : 0 < k) :
    (2 ^ (s - 1) + sig) / 2 ^ k < 2 ^ (s - 1) := by
  rw [Nat.div_lt_iff_lt_mul (by positivity)]
  calc 2 ^ (s - 1) + sig < 2 ^ (s - 1) * 2 ^ 1 := by omega
    _ ≤ 2 ^ (s - 1) * 2 ^ k := Nat.mul_le_mul_left _ (Nat.pow_le_pow_right Nat.zero_lt_two hk)

/-- Everything the subnormal branch of REC2FN can do: below the band InvalidEncoding, then LossyConversion, then the
value (R106 to R108). -/
theorem rec2fnSubnormal_cases {f : IeeeFormat} {r : Fields} (hf : f.Legal) (hsign : r.sign < 2)
    (hsig : r.sig < 2 ^ (f.s - 1)) (htag : f.toRecodedFormat.NormalTag r.exp)
    (hhigh : r.exp < f.toRecodedFormat.minNormalExponent) :
    (∃ y, rec2fnSubnormal f r = .ok y ∧ Recodes f (f.fields y) r) ∨
    (rec2fnSubnormal f r = .error .invalidEncoding ∧ r.exp < f.toRecodedFormat.minSubnormalExponent) ∨
    (rec2fnSubnormal f r = .error .lossyConversion ∧ f.toRecodedFormat.minSubnormalExponent ≤ r.exp ∧
      (2 ^ (f.s - 1) + r.sig) % 2 ^ (f.toRecodedFormat.minNormalExponent - r.exp) ≠ 0) := by
  rw [rec2fnSubnormal_eq hsig]
  split
  · next hbelow => exact .inr (.inl ⟨rfl, hbelow⟩)
  · next hband =>
    split
    · next hlossy => exact .inr (.inr ⟨rfl, not_lt.mp hband, hlossy⟩)
    · next hexact =>
      have hmod := not_not.mp hexact
      have hk := lt_of_significand_mod_eq_zero (one_le_two.trans hf.1) hsig hmod
      have hlow : f.toRecodedFormat.minSubnormalExponent < r.exp := by
        obtain ⟨hq, hK, -, -, -, hbound⟩ := hf.powers
        have hmin := f.toRecodedFormat_minNormalExponent
        rw [f.toRecodedFormat_minSubnormalExponent]
        omega
      have hback := (Nat.div_mul_cancel (Nat.dvd_of_mod_eq_zero hmod)).symm
      exact .inl (SameMagnitude.exists_ieee hf hsign (by positivity)
        (shifted_significand_lt hsig (Nat.sub_pos_of_lt hhigh)) (.subnormal rfl htag hlow hhigh hback))

/-- Everything REC2FN can do on a legal instance: give a value that its input recodes, or report one of its two conditions
on a pattern that R61 lists; it never meets a guard (R90, R111). -/
theorem rec2fnUnit_cases {f : IeeeFormat} (strict : Bool) (r : Nat) (hf : f.Legal) :
    (∃ y, rec2fnUnit f strict r = .ok y ∧ Recodes f (f.fields y) (f.toRecodedFormat.fields r)) ∨
    (rec2fnUnit f strict r = .error .invalidEncoding ∧ f.toRecodedFormat.InvalidPattern strict r) ∨
    (rec2fnUnit f strict r = .error .lossyConversion ∧ f.toRecodedFormat.LossyPattern r) := by
  obtain ⟨hq, hK, he, -, -, -⟩ := hf.powers
  have hsign : (f.toRecodedFormat.fields r).sign < 2 := fieldsOf_sign_lt ..
  have hexp : (f.toRecodedFormat.fields r).exp < 2 ^ f.toRecodedFormat.E := fieldsOf_exp_lt ..
  have hsig : (f.toRecodedFormat.fields r).sig < 2 ^ (f.s - 1) := fieldsOf_sig_lt ..
  have hones : 2 ^ f.e - 1 < 2 ^ f.e := by omega
  have hpos : 0 < 2 ^ (f.s - 1) := by positivity
  obtain h0 | h6 | h7 | htag := RecFormat.tag_cases (f.three_le_toRecodedFormat_E hf) hexp
  · rw [rec2fnUnit_of_tag_zero strict h0]
    split
    · next hstrict => exact .inr (.inl ⟨rfl, .inr (.inr ⟨hstrict.1, h0, hstrict.2⟩)⟩)
    · exact .inl (SameMagnitude.exists_ieee hf hsign (by positivity) hpos (.zero rfl rfl h0))
  · rw [rec2fnUnit_of_tag_six strict h6]
    exact .inl (SameMagnitude.exists_ieee hf hsign hones hpos (.infinity rfl rfl h6))
  · rw [rec2fnUnit_of_tag_seven strict h7]
    split
    · next hz => exact .inr (.inl ⟨rfl, .inl ⟨h7, hz⟩⟩)
    · next hnz => exact .inl (SameMagnitude.exists_ieee hf hsign hones hsig (.nan rfl hnz h7 rfl))
  · rw [rec2fnUnit_of_normalTag strict hf htag]
    split
    · next hhigh =>
      obtain hok | ⟨herr, hbelow⟩ | ⟨herr, hband, hlossy⟩ := rec2fnSubnormal_cases hf hsign hsig htag hhigh
      · exact .inl hok
      · exact .inr (.inl ⟨herr, .inr (.inl ⟨htag, hbelow⟩)⟩)
      · exact .inr (.inr ⟨herr, htag, hband, hhigh, hlossy⟩)
    · next hlow =>
      have hmin := f.toRecodedFormat_minNormalExponent
      have hrK := f.toRecodedFormat_K
      have hrange := (f.normalTag_toRecodedFormat_iff _).mp htag
      exact .inl (SameMagnitude.exists_ieee hf hsign (by omega) hsig
        (.normal (by dsimp only; omega) (by dsimp only; omega) htag (by dsimp only; omega) rfl))

end Sys2Proof.Machine
end

section
/-! SUPPORT. Every well-formed evaluation completes, and what it delivers (R73, R90). -/

namespace Sys2Proof.Machine

/-- FN2REC delivers a recoding of every input (R126). -/
theorem exec_fn2rec_recodes {f : IeeeFormat} {v pay : Nat} (det : Bool) (s : State) (hf : f.Legal)
    (hv : v < 2 ^ f.width) (hpay : pay < 2 ^ (f.s - 1)) :
    ∃ y, exec (.fn2rec f v det pay) s = .next (s.deliver y) ∧ Recodes f (f.fields v) (f.toRecodedFormat.fields y) := by
  obtain ⟨y, hy, hrec⟩ := fn2recUnit_recodes v det hf hpay
  exact ⟨y, by rw [exec_fn2rec s hf hv hpay, hy, State.finish_ok], hrec⟩

/-- Everything an evaluation of REC2FN does: deliver a value that its input recodes, or raise one of its two conditions. -/
theorem exec_rec2fn_cases {f : IeeeFormat} {r : Nat} (strict : Bool) (s : State) (hf : f.Legal)
    (hr : r < 2 ^ f.toRecodedFormat.width) :
    (∃ y, exec (.rec2fn f strict r) s = .next (s.deliver y) ∧ Recodes f (f.fields y) (f.toRecodedFormat.fields r)) ∨
    (exec (.rec2fn f strict r) s = .next (s.raise 1#2 f.width) ∧ f.toRecodedFormat.InvalidPattern strict r) ∨
    (exec (.rec2fn f strict r) s = .next (s.raise 2#2 f.width) ∧ f.toRecodedFormat.LossyPattern r) := by
  rw [exec_rec2fn s hf hr]
  obtain ⟨y, hy, hrec⟩ | ⟨herr, hpat⟩ | ⟨herr, hpat⟩ := rec2fnUnit_cases strict r hf
  · exact .inl ⟨y, by rw [hy, State.finish_ok], hrec⟩
  · exact .inr (.inl ⟨by rw [herr, State.finish_invalidEncoding], hpat⟩)
  · exact .inr (.inr ⟨by rw [herr, State.finish_lossyConversion], hpat⟩)

/-- With no condition, an evaluation of REC2FN gives a value that its input recodes. -/
theorem exec_rec2fn_recodes {f : IeeeFormat} {r : Nat} (strict : Bool) (s : State) (hf : f.Legal)
    (hr : r < 2 ^ f.toRecodedFormat.width) :
    ∃ t, exec (.rec2fn f strict r) s = .next t ∧
      (t.err = 0#2 → Recodes f (f.fields t.y) (f.toRecodedFormat.fields r)) := by
  obtain ⟨y, hexec, hrec⟩ | ⟨hexec, -⟩ | ⟨hexec, -⟩ := exec_rec2fn_cases strict s hf hr
  · exact ⟨_, hexec, fun _ => hrec⟩
  · exact ⟨_, hexec, fun herr => absurd herr (by simp)⟩
  · exact ⟨_, hexec, fun herr => absurd herr (by simp)⟩

/-- FN2REC, CLZ and REC2REC always give a result (R126, R140, R156). -/
theorem exists_unitResult_eq_ok {i : Instr} (hw : i.wellFormed = true) (hi : ∀ f strict r, i ≠ .rec2fn f strict r) :
    ∃ v, unitResult i = .ok v := by
  cases i with
  | rec2fn f strict r => exact absurd rfl (hi f strict r)
  | fn2rec f v det pay =>
    obtain ⟨hlegal, hfit⟩ := Bool.and_eq_true_iff.mp hw
    obtain ⟨-, hpay⟩ := of_decide_eq_true hfit
    obtain ⟨y, hy, -⟩ := fn2recUnit_recodes v det (of_decide_eq_true hlegal) hpay
    exact ⟨y, hy⟩
  | clz W x => exact ⟨_, rfl⟩
  | rec2rec a b v => exact ⟨_, rfl⟩

/-- So those three units deliver, with `err = 00` (R73). -/
theorem exec_eq_deliver_of_not_rec2fn {i : Instr} (s : State) (hw : i.wellFormed = true)
    (hi : ∀ f strict r, i ≠ .rec2fn f strict r) : ∃ v, exec i s = .next (s.deliver v) := by
  obtain ⟨v, hv⟩ := exists_unitResult_eq_ok hw hi
  exact ⟨v, by rw [exec_of_wellFormed s hw, hv, State.finish_ok]⟩

/-- A well-formed evaluation completes: no unit meets the guard of InvalidArgument (R90). -/
theorem exec_completes {i : Instr} (s : State) (hw : i.wellFormed = true) : ∃ t, exec i s = .next t := by
  by_cases hi : ∃ f strict r, i = .rec2fn f strict r
  · obtain ⟨f, strict, r, rfl⟩ := hi
    obtain ⟨hlegal, hfit⟩ := Bool.and_eq_true_iff.mp hw
    obtain ⟨t, hexec, -⟩ := exec_rec2fn_recodes strict s (of_decide_eq_true hlegal) (of_decide_eq_true hfit)
    exact ⟨t, hexec⟩
  · obtain ⟨v, hexec⟩ := exec_eq_deliver_of_not_rec2fn s hw fun f strict r h => hi ⟨f, strict, r, h⟩
    exact ⟨_, hexec⟩

/-- With no condition, the data fits the unit's own output (R28 to R31). -/
theorem exec_y_lt_of_err_zero {i : Instr} {s t : State} (h : exec i s = .next t) (herr : t.err = 0#2) :
    t.y < 2 ^ unitOutputWidth i := by
  obtain ⟨hw, ⟨v, hv, rfl⟩ | ⟨-, rfl⟩ | ⟨-, rfl⟩⟩ := exec_next h
  · exact unitResult_lt hw hv
  · simp at herr
  · simp at herr

end Sys2Proof.Machine
end

section
/-! CERTIFICATES. The statements of 30_encoding.md about results, classes and numbers (sections 1, 2 and 5). -/

namespace Sys2Proof.Machine

/-- Settles O6: the selected unit is well-formed, so it completes and its result fits its own output port; an operation code
other than 00 selects a unit that is not REC2FN. -/
theorem wrapperCompletesAndExtendsWithZeros : Obligations.WrapperCompletesAndExtendsWithZeros := by
  intro s hlegal hfits
  obtain ⟨t, hexec⟩ := exec_completes s (wellFormed_selectUnit hlegal hfits)
  refine ⟨t, (step_of_fits hlegal hfits).trans hexec, fun herr => ?_, fun hop => ?_⟩
  · have hy := exec_y_lt_of_err_zero hexec herr
    refine ⟨fun h => ?_, fun h => ?_, fun h => ?_, fun h => ?_⟩
    · rwa [selectUnit_of_op_zero _ h] at hy
    · rwa [selectUnit_of_op_one _ h, unitOutputWidth, IeeeFormat.toRecodedFormat_width] at hy
    · rwa [selectUnit_of_op_two _ h] at hy
    · rwa [selectUnit_of_op_three _ h, unitOutputWidth, IeeeFormat.toRecodedFormat_width] at hy
  · obtain ⟨v, hv⟩ := exec_eq_deliver_of_not_rec2fn s (wellFormed_selectUnit hlegal hfits)
      (selectUnit_ne_rec2fn s.params hop)
    obtain rfl : s.deliver v = t := Host.Outcome.next.inj (hv.symm.trans hexec)
    rfl

/-- Settles O49: the recoded side of either converter recodes the IEEE side, and a recoding has the same class. -/
theorem convertersKeepClass : Obligations.ConvertersKeepClass := by
  refine ⟨fun f v det pay s hf hv hpay => ?_, fun f strict r s hf hr => ?_⟩
  · obtain ⟨y, hexec, hrec⟩ := exec_fn2rec_recodes det s hf hv hpay
    exact ⟨_, hexec, hrec.magnitude.classify_eq hf⟩
  · rw [← f.toRecodedFormat_width] at hr
    obtain ⟨t, hexec, hrec⟩ := exec_rec2fn_recodes strict s hf hr
    exact ⟨t, hexec, fun herr => ((hrec herr).magnitude.classify_eq hf).symm⟩

/-- Settles O50: the recoded side of either converter recodes the IEEE side, and a recoding denotes the same number. -/
theorem convertersKeepNumber : Obligations.ConvertersKeepNumber := by
  refine ⟨fun f v det pay s hf hv hpay => ?_, fun f strict r s hf hr => ?_⟩
  · obtain ⟨y, hexec, hrec⟩ := exec_fn2rec_recodes det s hf hv hpay
    exact ⟨_, hexec, hrec.denote_eq hf⟩
  · rw [← f.toRecodedFormat_width] at hr
    obtain ⟨t, hexec, hrec⟩ := exec_rec2fn_recodes strict s hf hr
    exact ⟨t, hexec, fun herr => ((hrec herr).denote_eq hf).symm⟩

/-- Settles O51: the tags are blocks of `2^(E-3)` exponents with `3K = 6 * 2^(E-3)`. A pattern under tags 1 to 5
below the band is no recoding and no lossy pattern, so of all REC2FN can do it reports InvalidEncoding. -/
theorem recodedExponentLine : Obligations.RecodedExponentLine := by
  rintro f _ exp hf rfl hexp
  have hE := f.three_le_toRecodedFormat_E hf
  obtain ⟨-, hK, -, -, -, -⟩ := hf.powers
  have hpos : 0 < 2 ^ (f.toRecodedFormat.E - 3) := by positivity
  have hrK : f.toRecodedFormat.K = 2 * 2 ^ (f.toRecodedFormat.E - 3) := f.toRecodedFormat_K.trans hK
  refine ⟨?_, ?_, ?_, RecFormat.tag_eq_seven_iff hE hexp, fun strict v s hv hfield hlow hbelow => ?_⟩
  · rw [RecFormat.tag_eq_zero_iff]
    omega
  · rw [RecFormat.normalTag_iff]
    omega
  · rw [RecFormat.tag_eq_iff]
    omega
  · have hmin := f.toRecodedFormat_minSubnormalExponent
    have hfK := f.toRecodedFormat_K
    have htag : f.toRecodedFormat.NormalTag (f.toRecodedFormat.fields v).exp := by
      rw [RecFormat.normalTag_iff]
      omega
    rw [← hfield] at hbelow
    obtain ⟨y, -, hrec⟩ | ⟨hexec, -⟩ | ⟨-, -, hband, -⟩ :=
      exec_rec2fn_cases strict s hf (f.toRecodedFormat_width ▸ hv)
    · exact absurd hbelow (hrec.magnitude.minSubnormalExponent_lt hf htag).not_gt
    · exact ⟨_, hexec, rfl⟩
    · exact absurd hbelow hband.not_gt

end Sys2Proof.Machine
end

section
/-! SUPPORT. What `buildValue` gives, as a sum or as InvalidArgument (R85), and the special exponent fields and quiet-bit
significands that the infinity and NaN constructors compose (R82 to R84, R88, R89). -/

namespace Sys2Proof

/-- `buildValue` fails as soon as one of its three preconditions does (R85). -/
theorem buildValue_of_not_fits {X s sign exp sig : Nat} (h : ¬ (sign < 2 ∧ exp < 2 ^ X ∧ sig < 2 ^ (s - 1))) :
    buildValue X s sign exp sig = .error .invalidArgument := if_neg h

/-- `buildValue` of fields that fit, by the integer reading of a concatenation (R63, R85). -/
theorem buildValue_eq_ok_sum {X s sign exp sig : Nat} (hs : 1 ≤ s) (hsign : sign < 2) (hexp : exp < 2 ^ X)
    (hsig : sig < 2 ^ (s - 1)) :
    buildValue X s sign exp sig = .ok (sign * 2 ^ (X + s - 1) + exp * 2 ^ (s - 1) + sig) := by
  rw [buildValue_of_fits hsign hexp hsig, concatFields_eq hs hexp hsig]

theorem IeeeFormat.isInfinityOrNaN_iff (f : IeeeFormat) (exp : Nat) :
    f.isInfinityOrNaN exp = true ↔ exp = 2 ^ f.e - 1 := beq_iff_eq

theorem IeeeFormat.isZeroOrSubnormal_iff (f : IeeeFormat) (exp : Nat) : f.isZeroOrSubnormal exp = true ↔ exp = 0 :=
  beq_iff_eq

/-- Under the all-ones exponent field every trailing significand that fits is composed (R82, R83, R84). -/
theorem IeeeFormat.buildValue_ones {f : IeeeFormat} {sign sig : Nat} (hf : f.Legal) (hsign : sign < 2)
    (hsig : sig < 2 ^ (f.s - 1)) :
    f.buildValue sign (2 ^ f.e - 1) sig = .ok (sign * 2 ^ (f.e + f.s - 1) + (2 ^ f.e - 1) * 2 ^ (f.s - 1) + sig) :=
  buildValue_eq_ok_sum (one_le_two.trans hf.1) hsign (Nat.sub_one_lt (by positivity)) hsig

/-- Under a categorical exponent field, a tag with zero `low` bits, every trailing significand that fits is composed
(R88, R89). -/
theorem IeeeFormat.buildValue_shiftedTag {f : IeeeFormat} {sign tag sig : Nat} (hf : f.Legal) (hsign : sign < 2)
    (htag : tag < 8) (hsig : sig < 2 ^ (f.s - 1)) :
    f.toRecodedFormat.buildValue sign (tag <<< (f.toRecodedFormat.E - 3)) sig =
      .ok (sign * 2 ^ (f.e + f.s) + tag * 2 ^ (f.e - 2) * 2 ^ (f.s - 1) + sig) := by
  have hwidth : f.e + 1 + f.s - 1 = f.e + f.s := by omega
  have hlow : f.toRecodedFormat.E - 3 = f.e - 2 := by rw [toRecodedFormat_E]; omega
  calc f.toRecodedFormat.buildValue sign (tag <<< (f.toRecodedFormat.E - 3)) sig
      = .ok (sign * 2 ^ (f.e + 1 + f.s - 1) + tag <<< (f.toRecodedFormat.E - 3) * 2 ^ (f.s - 1) + sig) :=
        buildValue_eq_ok_sum (one_le_two.trans hf.1) hsign (tag_shiftLeft_lt hf htag) hsig
    _ = .ok (sign * 2 ^ (f.e + f.s) + tag * 2 ^ (f.e - 2) * 2 ^ (f.s - 1) + sig) := by
        rw [hwidth, hlow, Nat.shiftLeft_eq]

/-- The top bit of a trailing significand weighs half the field (R84, R89). -/
theorem two_pow_sig_eq {s : Nat} (hs : 2 ≤ s) : 2 ^ (s - 1) = 2 * 2 ^ (s - 2) := by
  rw [← pow_succ', show s - 2 + 1 = s - 1 by omega]

/-- A payload's top bit, passed as the quiet bit, is already in the payload (R89). -/
theorem or_topBit {s payload : Nat} (hs : 2 ≤ s) (h : payload < 2 ^ (s - 1)) :
    ((payload / 2 ^ (s - 2)) <<< (s - 2)) ||| payload = payload := by
  have hq : payload / 2 ^ (s - 2) < 2 := by rwa [Nat.div_lt_iff_lt_mul (by positivity), ← two_pow_sig_eq hs]
  simpa only [Nat.shiftRight_eq_div_pow, Nat.mod_eq_of_lt hq] using or_quietBit hs h

/-- The trailing significand of the default NaN: a quiet bit above ones, which the field holds (R84). -/
theorem quietBit_above_ones {s q : Nat} (hs : 2 ≤ s) (hq : q < 2) :
    (q <<< (s - 2)) ||| (2 ^ (s - 2) - 1) = q * 2 ^ (s - 2) + (2 ^ (s - 2) - 1) ∧
    q * 2 ^ (s - 2) + (2 ^ (s - 2) - 1) < 2 ^ (s - 1) := by
  have hpos : 0 < 2 ^ (s - 2) := by positivity
  have hquiet : q * 2 ^ (s - 2) ≤ 1 * 2 ^ (s - 2) := Nat.mul_le_mul_right _ (Nat.le_of_lt_succ hq)
  refine ⟨?_, ?_⟩
  · rw [← Nat.shiftLeft_add_eq_or_of_lt (Nat.sub_one_lt hpos.ne'), Nat.shiftLeft_eq]
  · rw [two_pow_sig_eq hs]
    omega

end Sys2Proof
end

section
/-! CERTIFICATES. The statements of 40_formats.md. -/

namespace Sys2Proof.Machine

/-- Settles O9: only a well-formed evaluation could fault, and a well-formed evaluation completes. -/
theorem evaluationNeverFaults : Obligations.EvaluationNeverFaults := by
  intro i s r hfault
  obtain ⟨hw, -⟩ := checked_fault ((exec_eq i s).symm.trans hfault)
  obtain ⟨t, hnext⟩ := exec_completes s hw
  cases hnext.symm.trans hfault

/-- Settles O52: fields that fit are composed, and extraction reads them back; the guard refuses all others. -/
theorem buildValueComposesOrFails : Obligations.BuildValueComposesOrFails := by
  intro X s sign exp sig hs
  have hs1 : 1 ≤ s := one_le_two.trans hs
  refine ⟨fun ⟨hsign, hexp, hsig⟩ => ?_, buildValue_of_not_fits⟩
  exact ⟨_, buildValue_of_fits hsign hexp hsig, rfl, concatFields_lt hs1 hsign hexp hsig,
    fieldsOf_concatFields hs1 hsign hexp hsig⟩

/-- Settles O53: each predicate names one exponent field, and in a legal format the two fields differ. -/
theorem ieeeExponentPredicates : Obligations.IeeeExponentPredicates := by
  intro f exp hf _
  refine ⟨f.isInfinityOrNaN_iff exp, f.isZeroOrSubnormal_iff exp, fun ⟨hones, hzero⟩ => ?_⟩
  exact f.zero_ne_ones hf (((f.isZeroOrSubnormal_iff exp).mp hzero).symm.trans ((f.isInfinityOrNaN_iff exp).mp hones))

/-- Settles O54: each constructor is `buildValue` under the all-ones exponent field or a categorical one, and what is left
is the trailing significand that it or-s together. -/
theorem formatConstructors : Obligations.FormatConstructors := by
  rintro f _ sign payload q hf rfl hsign hpayload hq
  have hs : 2 ≤ f.s := hf.1
  obtain ⟨hor, hfit⟩ := quietBit_above_ones hs hq
  have hquiet : 1 <<< (f.s - 2) ||| 0 = 2 ^ (f.s - 2) := by rw [Nat.or_zero, Nat.one_shiftLeft]
  have hquietFit : 2 ^ (f.s - 2) < 2 ^ (f.s - 1) := Nat.pow_lt_pow_right one_lt_two (by omega)
  refine ⟨IeeeFormat.buildValue_ones hf hsign (by positivity), IeeeFormat.buildValue_ones hf hsign hpayload, ?_,
    IeeeFormat.buildValue_shiftedTag hf hsign (by decide) hpayload, ?_, ?_⟩
  · rw [IeeeFormat.makeDefaultNaN, hor, IeeeFormat.buildValue_ones hf hsign hfit, ← Nat.add_assoc]
  · rw [RecFormat.makeNaN, IeeeFormat.toRecodedFormat_s, or_topBit hs hpayload]
    exact IeeeFormat.buildValue_shiftedTag hf hsign (by decide) hpayload
  · rw [RecFormat.makeNaN, IeeeFormat.toRecodedFormat_s, hquiet]
    exact IeeeFormat.buildValue_shiftedTag hf hsign (by decide) hquietFit

end Sys2Proof.Machine
end

section
/-! SUPPORT. The canonical patterns, tag by tag (R60); none of them is malformed (R61). -/

namespace Sys2Proof

section
variable {f : IeeeFormat} {r : Nat}

/-- `K` spans two tags, so R60's bounds and the tags are on one scale (R57, R58). -/
theorem IeeeFormat.toRecodedFormat_K_eq_tags (hf : f.Legal) :
    f.toRecodedFormat.K = 2 * 2 ^ (f.toRecodedFormat.E - 3) := f.toRecodedFormat_K.trans hf.powers.2.1

theorem canonical_iff_of_tag_zero (hf : f.Legal) (h : f.toRecodedFormat.tag (f.toRecodedFormat.fields r).exp = 0) :
    f.toRecodedFormat.Canonical r ↔ (f.toRecodedFormat.fields r).exp = 0 ∧ (f.toRecodedFormat.fields r).sig = 0 := by
  have hrK := f.toRecodedFormat_K_eq_tags hf
  have hs : f.toRecodedFormat.s ≤ 2 ^ (f.toRecodedFormat.E - 3) + 3 := hf.2.2
  rw [RecFormat.tag_eq_zero_iff] at h
  constructor
  · rintro (hzero | ⟨hexp, -⟩ | ⟨hexp, -⟩ | ⟨hlow, -⟩ | ⟨-, hlow, -⟩)
    · exact hzero
    · omega
    · omega
    · omega
    · omega
  · exact .inl

theorem canonical_iff_of_tag_six (hf : f.Legal) (h : f.toRecodedFormat.tag (f.toRecodedFormat.fields r).exp = 6) :
    f.toRecodedFormat.Canonical r ↔
      (f.toRecodedFormat.fields r).exp = 6 * 2 ^ (f.toRecodedFormat.E - 3) ∧ (f.toRecodedFormat.fields r).sig = 0 := by
  have hrK := f.toRecodedFormat_K_eq_tags hf
  have hpos : 0 < 2 ^ (f.toRecodedFormat.E - 3) := by positivity
  rw [RecFormat.tag_eq_iff] at h
  constructor
  · rintro (⟨hexp, -⟩ | hinf | ⟨hexp, -⟩ | ⟨-, hhigh⟩ | ⟨hhigh, -, -⟩)
    · omega
    · exact hinf
    · omega
    · omega
    · omega
  · exact fun hinf => .inr (.inl hinf)

theorem canonical_iff_of_tag_seven (hf : f.Legal) (h : f.toRecodedFormat.tag (f.toRecodedFormat.fields r).exp = 7) :
    f.toRecodedFormat.Canonical r ↔
      (f.toRecodedFormat.fields r).exp = 7 * 2 ^ (f.toRecodedFormat.E - 3) ∧ (f.toRecodedFormat.fields r).sig ≠ 0 := by
  have hrK := f.toRecodedFormat_K_eq_tags hf
  have hpos : 0 < 2 ^ (f.toRecodedFormat.E - 3) := by positivity
  rw [RecFormat.tag_eq_iff] at h
  constructor
  · rintro (⟨hexp, -⟩ | ⟨hexp, -⟩ | hnan | ⟨-, hhigh⟩ | ⟨hhigh, -, -⟩)
    · omega
    · omega
    · exact hnan
    · omega
    · omega
  · exact fun hnan => .inr (.inr (.inl hnan))

/-- R60's normals and subnormals, in terms of the two thresholds of R58. -/
theorem canonical_iff_of_normalTag (hf : f.Legal) (h : f.toRecodedFormat.NormalTag (f.toRecodedFormat.fields r).exp) :
    f.toRecodedFormat.Canonical r ↔
      f.toRecodedFormat.minNormalExponent ≤ (f.toRecodedFormat.fields r).exp ∨
      (f.toRecodedFormat.minSubnormalExponent < (f.toRecodedFormat.fields r).exp ∧
        (f.toRecodedFormat.fields r).exp < f.toRecodedFormat.minNormalExponent ∧
        (f.toRecodedFormat.fields r).sig %
          2 ^ (f.toRecodedFormat.minNormalExponent - (f.toRecodedFormat.fields r).exp) = 0) := by
  have hrK := f.toRecodedFormat_K_eq_tags hf
  have hs : f.toRecodedFormat.s ≤ 2 ^ (f.toRecodedFormat.E - 3) + 3 := hf.2.2
  have hpos : 0 < 2 ^ (f.toRecodedFormat.E - 3) := by positivity
  rw [RecFormat.normalTag_iff] at h
  unfold RecFormat.minSubnormalExponent RecFormat.minNormalExponent
  constructor
  · rintro (⟨hexp, -⟩ | ⟨hexp, -⟩ | ⟨hexp, -⟩ | ⟨hlow, -⟩ | ⟨hhigh, hlow, hmod⟩)
    · omega
    · omega
    · omega
    · exact .inl hlow
    · exact .inr ⟨by omega, by omega, hmod⟩
  · rintro (hlow | ⟨hlow, hhigh, hmod⟩)
    · exact .inr (.inr (.inr (.inl ⟨hlow, by omega⟩)))
    · exact .inr (.inr (.inr (.inr ⟨by omega, by omega, hmod⟩)))

/-- The implicit one adds nothing to the bits that a shift shorter than the field drops (R107). -/
theorem implicitOne_add_mod {p k : Nat} (sig : Nat) (hk : k ≤ p) : (2 ^ p + sig) % 2 ^ k = sig % 2 ^ k := by
  obtain ⟨c, hc⟩ := pow_dvd_pow 2 hk
  rw [hc, Nat.mul_add_mod]

/-- A canonical pattern is not malformed, under either value of STRICT_ZERO_TAG (R60, R61). -/
theorem not_invalidPattern_of_canonical (hf : f.Legal) (hr : f.toRecodedFormat.Canonical r) (strict : Bool) :
    ¬ f.toRecodedFormat.InvalidPattern strict r := by
  rintro (⟨h7, hz⟩ | ⟨htag, hbelow⟩ | ⟨-, h0, hnz⟩)
  · exact ((canonical_iff_of_tag_seven hf h7).mp hr).2 hz
  · obtain hhigh | ⟨hlow, -, -⟩ := (canonical_iff_of_normalTag hf htag).mp hr
    · exact absurd (hbelow.trans_le (Nat.sub_le ..)) hhigh.not_gt
    · exact absurd hbelow hlow.not_gt
  · exact hnz ((canonical_iff_of_tag_zero hf h0).mp hr).2

theorem not_lossyPattern_of_canonical (hf : f.Legal) (hr : f.toRecodedFormat.Canonical r) :
    ¬ f.toRecodedFormat.LossyPattern r := by
  rintro ⟨htag, -, hhigh, hlossy⟩
  have hmin := f.toRecodedFormat_minNormalExponent
  have hminSub := f.toRecodedFormat_minSubnormalExponent
  obtain hnormal | ⟨hlow, -, hmod⟩ := (canonical_iff_of_normalTag hf htag).mp hr
  · exact absurd hhigh hnormal.not_gt
  · rw [f.toRecodedFormat_s, implicitOne_add_mod _ (by omega)] at hlossy
    exact hlossy hmod

end

/-- Under tags 1 to 5 every recoding is canonical: the bits below a shifted significand are 0 (R60, R122). -/
theorem SameMagnitude.canonical_of_normalTag {f : IeeeFormat} {i : Fields} {r : Nat} (hf : f.Legal)
    (h : SameMagnitude f i (f.toRecodedFormat.fields r))
    (htag : f.toRecodedFormat.NormalTag (f.toRecodedFormat.fields r).exp) : f.toRecodedFormat.Canonical r := by
  have hmin := f.toRecodedFormat_minNormalExponent
  have hminSub := f.toRecodedFormat_minSubnormalExponent
  rw [canonical_iff_of_normalTag hf htag]
  cases h with
  | zero _ _ h0 => omega
  | subnormal _ _ hlow hhigh hshift =>
    have hmod := implicitOne_add_mod (p := f.s - 1) (f.toRecodedFormat.fields r).sig
      (show f.toRecodedFormat.minNormalExponent - (f.toRecodedFormat.fields r).exp ≤ f.s - 1 by omega)
    rw [hshift, Nat.mul_mod_left] at hmod
    exact .inr ⟨hlow, hhigh, hmod.symm⟩
  | normal hlow _ _ hexp => exact .inl (by omega)
  | infinity _ _ h6 => omega
  | nan _ _ h7 => omega

end Sys2Proof
end

section
/-! SUPPORT. Which patterns REC2FN turns away, exactly (R61); that REC2FN undoes every recoding that passes
STRICT_ZERO_TAG, and that FN2REC gives every canonical recoding back (R113). -/

namespace Sys2Proof

/-- A pattern's grade is "malformed" exactly when R61 lists it. -/
theorem RecFormat.grade_eq_malformed_iff (r : RecFormat) (strict : Bool) (v : Nat) :
    r.grade strict v = .malformed ↔ r.InvalidPattern strict v ∨ r.LossyPattern v := by
  unfold grade
  split
  · next h => simp [h]
  · next h => split <;> simp [h]

/-- Composing a value's own fields gives the value (R63, R85). -/
theorem buildValue_fieldsOf {X s v : Nat} (hs : 1 ≤ s) (hv : v < 2 ^ (X + s)) :
    buildValue X s (fieldsOf X s v).sign (fieldsOf X s v).exp (fieldsOf X s v).sig = .ok v := by
  rw [buildValue_of_fits (fieldsOf_sign_lt ..) (fieldsOf_exp_lt ..) (fieldsOf_sig_lt ..), concatFields_fieldsOf hs hv]

/-- A composed value has the fields it was composed of (R63, R85). -/
theorem fieldsOf_of_buildValue {X s sign exp sig v : Nat} (hs : 1 ≤ s) (h : buildValue X s sign exp sig = .ok v) :
    fieldsOf X s v = { sign := sign, exp := exp, sig := sig } := by
  obtain ⟨hsign, hexp, hsig, rfl⟩ := buildValue_ok h
  exact fieldsOf_concatFields hs hsign hexp hsig

theorem IeeeFormat.toRecodedFormat_sig_lt (f : IeeeFormat) (r : Nat) :
    (f.toRecodedFormat.fields r).sig < 2 ^ (f.s - 1) := fieldsOf_sig_lt ..

end Sys2Proof

namespace Sys2Proof.Machine

variable {f : IeeeFormat} {r v y : Nat} {strict : Bool}

/-! ### What REC2FN turns away -/

/-- The three causes of InvalidEncoding, each at its own branch (R103, R105, R106, R173). -/
theorem rec2fnUnit_of_invalidPattern (hf : f.Legal) (h : f.toRecodedFormat.InvalidPattern strict r) :
    rec2fnUnit f strict r = .error .invalidEncoding := by
  obtain ⟨h7, hz⟩ | ⟨htag, hbelow⟩ | ⟨hstrict, h0, hnz⟩ := h
  · rw [rec2fnUnit_of_tag_seven strict h7, if_pos hz]
  · have hhigh : (f.toRecodedFormat.fields r).exp < f.toRecodedFormat.minNormalExponent :=
      hbelow.trans_le (Nat.sub_le ..)
    rw [rec2fnUnit_of_normalTag strict hf htag, if_pos hhigh, rec2fnSubnormal_eq (f.toRecodedFormat_sig_lt r),
      if_pos hbelow]
  · rw [rec2fnUnit_of_tag_zero strict h0, if_pos ⟨hstrict, hnz⟩]

/-- The one cause of LossyConversion (R107, R174). -/
theorem rec2fnUnit_of_lossyPattern (strict : Bool) (hf : f.Legal) (h : f.toRecodedFormat.LossyPattern r) :
    rec2fnUnit f strict r = .error .lossyConversion := by
  obtain ⟨htag, hband, hhigh, hlossy⟩ := h
  rw [f.toRecodedFormat_s] at hlossy
  rw [rec2fnUnit_of_normalTag strict hf htag, if_pos hhigh, rec2fnSubnormal_eq (f.toRecodedFormat_sig_lt r),
    if_neg hband.not_gt, if_pos hlossy]

/-- A pattern that R61 does not list is converted to a value that it recodes (R111). -/
theorem rec2fnUnit_of_not_malformed (hf : f.Legal) (hinvalid : ¬ f.toRecodedFormat.InvalidPattern strict r)
    (hlossy : ¬ f.toRecodedFormat.LossyPattern r) :
    ∃ y, rec2fnUnit f strict r = .ok y ∧ Recodes f (f.fields y) (f.toRecodedFormat.fields r) := by
  obtain hok | ⟨-, hpat⟩ | ⟨-, hpat⟩ := rec2fnUnit_cases strict r hf
  · exact hok
  · exact absurd hpat hinvalid
  · exact absurd hpat hlossy

/-! ### What REC2FN undoes -/

/-- REC2FN composes the very fields that its input recodes, class by class (R102 to R109). -/
theorem rec2fnUnit_of_recodes {i : Fields} (hf : f.Legal) (h : Recodes f i (f.toRecodedFormat.fields r))
    (hzero : strict = true → f.toRecodedFormat.tag (f.toRecodedFormat.fields r).exp = 0 →
      (f.toRecodedFormat.fields r).sig = 0) :
    rec2fnUnit f strict r = f.buildValue i.sign i.exp i.sig := by
  obtain ⟨hsign, hmag⟩ := h
  cases hmag with
  | zero hexp hsig h0 =>
    have hpass : ¬ (strict = true ∧ (f.toRecodedFormat.fields r).sig ≠ 0) := fun ⟨hs, hnz⟩ => hnz (hzero hs h0)
    rw [rec2fnUnit_of_tag_zero strict h0, if_neg hpass, hsign, hexp, hsig]
  | subnormal hexp htag hlow hhigh hshift =>
    rw [rec2fnUnit_of_normalTag strict hf htag, if_pos hhigh, rec2fnSubnormal_eq (f.toRecodedFormat_sig_lt r),
      if_neg hlow.not_gt, hshift, if_neg (not_not.mpr (Nat.mul_mod_left ..)), Nat.mul_div_cancel _ (by positivity),
      hsign, hexp]
  | normal hlow _ htag hexp hsig =>
    have hback : (f.toRecodedFormat.fields r).exp - f.toRecodedFormat.K - 1 = i.exp := by
      rw [RecFormat.minNormalExponent] at hexp
      omega
    rw [rec2fnUnit_of_normalTag strict hf htag, if_neg (by omega), hback, hsign, hsig]
  | infinity hexp hsig h6 => rw [rec2fnUnit_of_tag_six strict h6, IeeeFormat.makeInfinity, hsign, hexp, hsig]
  | nan hexp hnz h7 hsig =>
    rw [rec2fnUnit_of_tag_seven strict h7, hsig, if_neg hnz, IeeeFormat.makeNaN, hsign, hexp]

/-- So it gives back every value that its input recodes, but for the zeros that STRICT_ZERO_TAG refuses (R103, R113). -/
theorem rec2fnUnit_of_recoding (hf : f.Legal) (hv : v < 2 ^ f.width)
    (h : Recodes f (f.fields v) (f.toRecodedFormat.fields r))
    (hzero : strict = true → f.toRecodedFormat.tag (f.toRecodedFormat.fields r).exp = 0 →
      (f.toRecodedFormat.fields r).sig = 0) : rec2fnUnit f strict r = .ok v :=
  (rec2fnUnit_of_recodes hf h hzero).trans (buildValue_fieldsOf (one_le_two.trans hf.1) hv)

/-- FN2REC gives a zero with a zero significand, which STRICT_ZERO_TAG lets pass (R103, R123). -/
theorem fn2recUnit_sig_of_tag_zero {det : Bool} {pay : Nat} (hf : f.Legal) (hy : fn2recUnit f v det pay = .ok y)
    (h : SameMagnitude f (f.fields v) (f.toRecodedFormat.fields y))
    (h0 : f.toRecodedFormat.tag (f.toRecodedFormat.fields y).exp = 0) : (f.toRecodedFormat.fields y).sig = 0 := by
  cases h with
  | zero hexp hsig =>
    rw [fn2recUnit_of_zero det pay hf hexp hsig] at hy
    exact congrArg Fields.sig (fieldsOf_of_buildValue (one_le_two.trans hf.1) hy)
  | _ => omega

/-! ### What FN2REC gives back -/

/-- A longer shift would bring the leading one above its place (R122). -/
theorem shift_le_of_leadingOne {p x k l : Nat} (hk : x * 2 ^ k < 2 ^ (p + 1)) (hl : 2 ^ p ≤ x * 2 ^ l) : k ≤ l := by
  by_contra hlt
  have htwice : x * 2 ^ (l + 1) ≤ x * 2 ^ k :=
    Nat.mul_le_mul_left _ (Nat.pow_le_pow_right Nat.zero_lt_two (by omega))
  rw [pow_succ, ← mul_assoc] at htwice
  rw [pow_succ] at hk
  omega

/-- The subnormal branch composes the recoded fields of its input: the count is what their exponent says (R122). -/
theorem fn2recSubnormal_of_shift {i c : Fields} (hi : i.sig < 2 ^ (f.s - 1)) (hc : c.sig < 2 ^ (f.s - 1))
    (hhigh : c.exp < f.toRecodedFormat.minNormalExponent)
    (hshift : 2 ^ (f.s - 1) + c.sig = i.sig * 2 ^ (f.toRecodedFormat.minNormalExponent - c.exp)) :
    fn2recSubnormal f i = f.toRecodedFormat.buildValue i.sign c.exp c.sig := by
  obtain ⟨hone, htop⟩ := shift_past_leadingOne hi (sig_ne_zero_of_shift hshift)
  have hcount : clz (f.s - 1) i.sig + 1 = f.toRecodedFormat.minNormalExponent - c.exp := by
    apply le_antisymm
    · exact shift_le_of_leadingOne htop (by omega)
    · exact shift_le_of_leadingOne (by rw [← hshift, pow_succ]; omega) hone
  have hexp : 2 ^ (f.e - 1) + 1 - clz (f.s - 1) i.sig = c.exp := by
    rw [f.toRecodedFormat_minNormalExponent] at hcount hhigh
    omega
  rw [fn2recSubnormal_eq, hexp, hcount, ← hshift, Nat.add_mod_left, Nat.mod_eq_of_lt hc]

/-- With `det_payload = 1` FN2REC gives the canonical recoding of a value (R60, R121 to R124). -/
theorem fn2recUnit_of_canonical (pay : Nat) (hf : f.Legal) (hr : r < 2 ^ f.toRecodedFormat.width)
    (h : Recodes f (f.fields v) (f.toRecodedFormat.fields r)) (hcanon : f.toRecodedFormat.Canonical r) :
    fn2recUnit f v true pay = .ok r := by
  obtain ⟨hsign, hmag⟩ := h
  have hself : f.toRecodedFormat.buildValue (f.toRecodedFormat.fields r).sign (f.toRecodedFormat.fields r).exp
      (f.toRecodedFormat.fields r).sig = .ok r := buildValue_fieldsOf (one_le_two.trans hf.1) hr
  rw [← hself]
  cases hmag with
  | zero hexp hsig h0 =>
    obtain ⟨hrexp, hrsig⟩ := (canonical_iff_of_tag_zero hf h0).mp hcanon
    rw [fn2recUnit_of_zero true pay hf hexp hsig, hsign, hrexp, hrsig]
  | subnormal hexp htag hlow hhigh hshift =>
    rw [fn2recUnit_of_subnormal true pay hf hexp (sig_ne_zero_of_shift hshift), hsign]
    exact fn2recSubnormal_of_shift (fieldsOf_sig_lt f.e f.s v) (f.toRecodedFormat_sig_lt r) hhigh hshift
  | normal hlow hhigh htag hexp hsig =>
    have hrebias : (f.fields v).exp - 1 + f.toRecodedFormat.minNormalExponent = (f.toRecodedFormat.fields r).exp := by
      omega
    rw [fn2recUnit_of_normal true pay hlow hhigh, hsign, hrebias, hsig]
  | infinity hexp hsig h6 =>
    obtain ⟨hrexp, hrsig⟩ := (canonical_iff_of_tag_six hf h6).mp hcanon
    rw [fn2recUnit_of_infinity true pay hexp hsig, RecFormat.makeInfinity, hsign, hrexp, hrsig, Nat.shiftLeft_eq]
    rfl
  | nan hexp hnz h7 hsig =>
    obtain ⟨hrexp, -⟩ := (canonical_iff_of_tag_seven hf h7).mp hcanon
    rw [fn2recUnit_of_nan true pay hf.1 hexp hnz, hsign, hrexp, hsig, Nat.shiftLeft_eq]

/-! ### The evaluations -/

theorem exec_rec2fn_of_ok (s : State) (hf : f.Legal) (hr : r < 2 ^ (f.e + f.s + 1))
    (h : rec2fnUnit f strict r = .ok y) : exec (.rec2fn f strict r) s = .next (s.deliver y) := by
  rw [exec_rec2fn s hf (f.toRecodedFormat_width ▸ hr), h, State.finish_ok]

theorem exec_rec2fn_of_invalidPattern (s : State) (hf : f.Legal) (hr : r < 2 ^ (f.e + f.s + 1))
    (h : f.toRecodedFormat.InvalidPattern strict r) :
    exec (.rec2fn f strict r) s = .next (s.raise 1#2 f.width) := by
  rw [exec_rec2fn s hf (f.toRecodedFormat_width ▸ hr), rec2fnUnit_of_invalidPattern hf h, State.finish_invalidEncoding]

theorem exec_rec2fn_of_lossyPattern (strict : Bool) (s : State) (hf : f.Legal) (hr : r < 2 ^ (f.e + f.s + 1))
    (h : f.toRecodedFormat.LossyPattern r) :
    exec (.rec2fn f strict r) s = .next (s.raise 2#2 f.width) := by
  rw [exec_rec2fn s hf (f.toRecodedFormat_width ▸ hr), rec2fnUnit_of_lossyPattern strict hf h,
    State.finish_lossyConversion]

/-- Whatever REC2FN converts under tags 1 to 5, FN2REC takes back to the same pattern (R112, R113). -/
theorem fn2recUnit_of_exec_rec2fn {s t : State} (pay : Nat) (hf : f.Legal)
    (htag : f.toRecodedFormat.NormalTag (f.toRecodedFormat.fields r).exp)
    (h : exec (.rec2fn f strict r) s = .next t) (herr : t.err = 0#2) : fn2recUnit f t.y true pay = .ok r := by
  have hr : r < 2 ^ f.toRecodedFormat.width := of_decide_eq_true (Bool.and_eq_true_iff.mp (exec_next h).1).2
  obtain ⟨t', hexec, hrec⟩ := exec_rec2fn_recodes strict s hf hr
  obtain rfl : t' = t := Host.Outcome.next.inj (hexec.symm.trans h)
  exact fn2recUnit_of_canonical pay hf hr (hrec herr) ((hrec herr).magnitude.canonical_of_normalTag hf htag)

end Sys2Proof.Machine
end

section
/-! SUPPORT. The sign bit: every value carries it on top, and flipping it changes no other field (R63, R110). -/

namespace Sys2Proof

theorem testBit_eq_decide_sign (X s v : Nat) : v.testBit (X + s - 1) = decide ((fieldsOf X s v).sign = 1) := by
  rw [fieldsOf_eq, Nat.testBit_eq_decide_div_mod_eq]

/-- Flipping the top bit flips the sign field and keeps the other two. -/
theorem fieldsOf_xor_topBit {X s : Nat} (hs : 1 ≤ s) (v : Nat) :
    fieldsOf X s (v ^^^ 2 ^ (X + s - 1)) = { fieldsOf X s v with sign := (fieldsOf X s v).sign ^^^ 1 } := by
  have hsplit : X + s - 1 = s - 1 + X := by omega
  have hsign : 2 ^ (X + s - 1) >>> (X + s - 1) = 1 := by simp [Nat.shiftRight_eq_div_pow]
  have hexp : 2 ^ (X + s - 1) >>> (s - 1) % 2 ^ X = 0 := by
    rw [hsplit, Nat.shiftRight_eq_div_pow, pow_add, Nat.mul_div_cancel_left _ (by positivity), Nat.mod_self]
  have hsig : 2 ^ (X + s - 1) % 2 ^ (s - 1) = 0 := by rw [hsplit, pow_add, Nat.mul_mod_right]
  have htwo (a : Nat) : (a ^^^ 1) % 2 = a % 2 ^^^ 1 := Nat.xor_mod_two_pow (n := 1)
  simp only [fieldsOf, Nat.shiftRight_xor_distrib, hsign, htwo, Nat.xor_mod_two_pow, hexp, hsig, Nat.xor_zero]

theorem IeeeFormat.fields_xor_signBit {f : IeeeFormat} (hf : f.Legal) (v : Nat) :
    f.fields (v ^^^ 2 ^ (f.e + f.s - 1)) = { f.fields v with sign := (f.fields v).sign ^^^ 1 } :=
  fieldsOf_xor_topBit (one_le_two.trans hf.1) v

theorem IeeeFormat.recodedFields_xor_signBit {f : IeeeFormat} (hf : f.Legal) (r : Nat) :
    f.toRecodedFormat.fields (r ^^^ 2 ^ (f.e + f.s)) =
      { f.toRecodedFormat.fields r with sign := (f.toRecodedFormat.fields r).sign ^^^ 1 } := by
  have hwidth : f.e + f.s = f.e + 1 + f.s - 1 := by omega
  rw [hwidth]
  exact fieldsOf_xor_topBit (one_le_two.trans hf.1) r

/-- Flipping both signs keeps a recoding a recoding. -/
theorem Recodes.xor_sign {f : IeeeFormat} {i r : Fields} (h : Recodes f i r) :
    Recodes f { i with sign := i.sign ^^^ 1 } { r with sign := r.sign ^^^ 1 } where
  sign := congrArg (· ^^^ 1) h.sign
  magnitude := by
    cases h.magnitude with
    | zero hexp hsig htag => exact .zero hexp hsig htag
    | subnormal hexp htag hlow hhigh hsig => exact .subnormal hexp htag hlow hhigh hsig
    | normal hlow hhigh htag hexp hsig => exact .normal hlow hhigh htag hexp hsig
    | infinity hexp hsig htag => exact .infinity hexp hsig htag
    | nan hexp hnz htag hsig => exact .nan hexp hnz htag hsig

/-- The sign bit of a recoding is that of the value (R110, R127). -/
theorem Recodes.testBit_sign {f : IeeeFormat} {v r : Nat} (h : Recodes f (f.fields v) (f.toRecodedFormat.fields r)) :
    v.testBit (f.e + f.s - 1) = r.testBit (f.e + f.s) := by
  have hwidth : f.e + f.s = f.e + 1 + f.s - 1 := by omega
  have hsign : (fieldsOf (f.e + 1) f.s r).sign = (fieldsOf f.e f.s v).sign := h.sign
  rw [testBit_eq_decide_sign, hwidth, testBit_eq_decide_sign, hsign]

theorem IeeeFormat.xor_signBit_lt {f : IeeeFormat} {v : Nat} (hf : f.Legal) (hv : v < 2 ^ f.width) :
    v ^^^ 2 ^ (f.e + f.s - 1) < 2 ^ f.width :=
  Nat.xor_lt_two_pow hv (Nat.pow_lt_pow_right one_lt_two (by have := hf.1; rw [width]; omega))

end Sys2Proof
end

section
/-! CERTIFICATES. The statements of 41_rec2fn.md. -/

namespace Sys2Proof.Machine

/-- Settles O37: FN2REC gives a recoding, a zero with a zero significand among them, and REC2FN undoes it. -/
theorem ieeeValueSurvivesRoundTrip : Obligations.IeeeValueSurvivesRoundTrip := by
  intro f v det strict pay s hf hv hpay
  obtain ⟨y, hy, hrec⟩ := fn2recUnit_recodes v det hf hpay
  have hback : rec2fnUnit f strict y = .ok v :=
    rec2fnUnit_of_recoding hf hv hrec fun _ h0 => fn2recUnit_sig_of_tag_zero hf hy hrec.magnitude h0
  refine ⟨s.deliver y, by rw [exec_fn2rec s hf hv hpay, hy, State.finish_ok], ?_⟩
  exact exec_rec2fn_of_ok _ hf (f.toRecodedFormat_width ▸ fn2recUnit_lt hf hy) hback

/-- Settles O38: a canonical pattern is not malformed, so it is the canonical recoding of what REC2FN makes of it, and
FN2REC gives that one. -/
theorem canonicalPatternSurvivesRoundTrip : Obligations.CanonicalPatternSurvivesRoundTrip := by
  intro f r strict pay s hf hr hpay hcanon
  obtain ⟨y, hy, hrec⟩ := rec2fnUnit_of_not_malformed hf (not_invalidPattern_of_canonical hf hcanon strict)
    (not_lossyPattern_of_canonical hf hcanon)
  have hback : fn2recUnit f y true pay = .ok r :=
    fn2recUnit_of_canonical pay hf (f.toRecodedFormat_width ▸ hr) hrec hcanon
  refine ⟨s.deliver y, exec_rec2fn_of_ok s hf hr hy, rfl, ?_⟩
  rw [State.deliver_y, exec_fn2rec _ hf (rec2fnUnit_lt hf hy) hpay, hback, State.finish_ok]
  rfl

/-- Settles O16: the strict test, then a zero of the input's sign, composed as a sum. -/
theorem rec2fnZeroTag : Obligations.Rec2fnZeroTag := by
  intro f strict r s hf hr h0
  refine ⟨fun hpass => ?_, fun ⟨hstrict, hnz⟩ => ?_⟩
  · have hsum : f.buildValue (f.toRecodedFormat.fields r).sign 0 0 =
        .ok ((f.toRecodedFormat.fields r).sign * 2 ^ (f.e + f.s - 1) + 0 * 2 ^ (f.s - 1) + 0) :=
      buildValue_eq_ok_sum (one_le_two.trans hf.1) (fieldsOf_sign_lt ..) (by positivity) (by positivity)
    rw [Nat.zero_mul] at hsum
    exact exec_rec2fn_of_ok s hf hr (by rw [rec2fnUnit_of_tag_zero strict h0, if_neg hpass]; exact hsum)
  · exact ⟨_, exec_rec2fn_of_invalidPattern s hf hr (.inr (.inr ⟨hstrict, h0, hnz⟩)), rfl⟩

/-- Settles O17: the infinity of the input's sign; no other bit of the input is read. -/
theorem rec2fnInfinityTag : Obligations.Rec2fnInfinityTag := by
  intro f strict r s hf hr h6
  exact exec_rec2fn_of_ok s hf hr (by
    rw [rec2fnUnit_of_tag_six strict h6]
    exact IeeeFormat.buildValue_ones hf (fieldsOf_sign_lt ..) (by positivity))

/-- Settles O18: the zero test, then the significand as it is under the all-ones exponent field. -/
theorem rec2fnNanTag : Obligations.Rec2fnNanTag := by
  intro f strict r s hf hr h7
  refine ⟨fun hnz => ?_, fun hz => ?_⟩
  · exact exec_rec2fn_of_ok s hf hr (by
      rw [rec2fnUnit_of_tag_seven strict h7, if_neg hnz]
      exact IeeeFormat.buildValue_ones hf (fieldsOf_sign_lt ..) (f.toRecodedFormat_sig_lt r))
  · exact ⟨_, exec_rec2fn_of_invalidPattern s hf hr (.inl ⟨h7, hz⟩), rfl⟩

/-- Settles O19: both tests of the subnormal branch pass, and a lossless shift is shorter than the significand, so its
leading one stays but leaves the implicit place. -/
theorem rec2fnSubnormalBand : Obligations.Rec2fnSubnormalBand := by
  rintro f strict r s fl k hf hr rfl htag hband hhigh rfl hexact
  have hsig := f.toRecodedFormat_sig_lt r
  rw [← f.toRecodedFormat_minNormalExponent] at hhigh hexact ⊢
  rw [← f.toRecodedFormat_minSubnormalExponent] at hband
  have hpos : 0 < 2 ^ (f.s - 1) := by positivity
  have hlt := shifted_significand_lt hsig (Nat.sub_pos_of_lt hhigh)
  refine ⟨?_, Nat.div_pos (Nat.le_of_dvd (by omega) (Nat.dvd_of_mod_eq_zero hexact)) (by positivity), hlt⟩
  have hsum := buildValue_eq_ok_sum (X := f.e) (exp := 0) (one_le_two.trans hf.1)
    (fieldsOf_sign_lt (f.e + 1) f.s r) (by positivity) hlt
  rw [Nat.zero_mul, Nat.add_zero] at hsum
  exact exec_rec2fn_of_ok s hf hr (by
    rw [rec2fnUnit_of_normalTag strict hf htag, if_pos hhigh, rec2fnSubnormal_eq hsig, if_neg hband.not_gt,
      if_neg (not_not.mpr hexact)]
    exact hsum)

/-- Settles O20: from the threshold upwards the rebiased exponent is a normal IEEE one. -/
theorem rec2fnNormalRange : Obligations.Rec2fnNormalRange := by
  rintro f strict r s fl hf hr rfl htag hlow
  obtain ⟨hq, hK, he, -, -, -⟩ := hf.powers
  have hrange := (f.normalTag_toRecodedFormat_iff _).mp htag
  have hmin := f.toRecodedFormat_minNormalExponent
  have hexp : (f.toRecodedFormat.fields r).exp - 2 ^ (f.e - 1) - 1 < 2 ^ f.e := by omega
  refine ⟨exec_rec2fn_of_ok s hf hr ?_, by omega, by omega⟩
  rw [rec2fnUnit_of_normalTag strict hf htag, if_neg (by omega), f.toRecodedFormat_K]
  exact buildValue_eq_ok_sum (one_le_two.trans hf.1) (fieldsOf_sign_lt ..) hexp (f.toRecodedFormat_sig_lt r)

/-- Settles O25: the patterns that R61 lists do not mention the sign, and flipping both signs keeps a recoding. -/
theorem rec2fnKeepsSign : Obligations.Rec2fnKeepsSign := by
  intro f strict r s hf hr
  have hfields := IeeeFormat.recodedFields_xor_signBit hf r
  have hr' : r ^^^ 2 ^ (f.e + f.s) < 2 ^ (f.e + f.s + 1) :=
    Nat.xor_lt_two_pow hr (Nat.pow_lt_pow_right one_lt_two (Nat.lt_succ_self _))
  by_cases hinvalid : f.toRecodedFormat.InvalidPattern strict r
  · have hinvalid' : f.toRecodedFormat.InvalidPattern strict (r ^^^ 2 ^ (f.e + f.s)) := by
      rwa [RecFormat.InvalidPattern, hfields]
    exact ⟨_, _, exec_rec2fn_of_invalidPattern s hf hr hinvalid, exec_rec2fn_of_invalidPattern s hf hr' hinvalid', rfl,
      fun herr => absurd herr (by simp), fun herr => absurd herr (by simp)⟩
  by_cases hlossy : f.toRecodedFormat.LossyPattern r
  · have hlossy' : f.toRecodedFormat.LossyPattern (r ^^^ 2 ^ (f.e + f.s)) := by
      rwa [RecFormat.LossyPattern, hfields]
    exact ⟨_, _, exec_rec2fn_of_lossyPattern strict s hf hr hlossy, exec_rec2fn_of_lossyPattern strict s hf hr' hlossy',
      rfl, fun herr => absurd herr (by simp), fun herr => absurd herr (by simp)⟩
  obtain ⟨y, hy, hrec⟩ := rec2fnUnit_of_not_malformed hf hinvalid hlossy
  have hrec' : Recodes f (f.fields (y ^^^ 2 ^ (f.e + f.s - 1))) (f.toRecodedFormat.fields (r ^^^ 2 ^ (f.e + f.s))) := by
    rw [hfields, IeeeFormat.fields_xor_signBit hf]
    exact hrec.xor_sign
  have hy' : rec2fnUnit f strict (r ^^^ 2 ^ (f.e + f.s)) = .ok (y ^^^ 2 ^ (f.e + f.s - 1)) := by
    refine rec2fnUnit_of_recoding hf (IeeeFormat.xor_signBit_lt hf (rec2fnUnit_lt hf hy)) hrec' fun hstrict h0 => ?_
    rw [hfields] at h0 ⊢
    by_contra hnz
    exact hinvalid (.inr (.inr ⟨hstrict, h0, hnz⟩))
  exact ⟨_, _, exec_rec2fn_of_ok s hf hr hy, exec_rec2fn_of_ok s hf hr' hy', rfl, fun _ => hrec.testBit_sign, fun _ => rfl⟩

/-- Settles O26: a pattern is invalid, or lossy, or neither, and REC2FN reports, reports or converts accordingly. -/
theorem rec2fnAcceptsExactlyWellFormed : Obligations.Rec2fnAcceptsExactlyWellFormed := by
  intro f strict r s hf hr
  rw [Ne, RecFormat.grade_eq_malformed_iff, not_or]
  by_cases hinvalid : f.toRecodedFormat.InvalidPattern strict r
  · exact ⟨_, exec_rec2fn_of_invalidPattern s hf hr hinvalid, .inr (.inl rfl),
      fun herr => absurd herr (by simp), fun h => absurd hinvalid h.1⟩
  by_cases hlossy : f.toRecodedFormat.LossyPattern r
  · exact ⟨_, exec_rec2fn_of_lossyPattern strict s hf hr hlossy, .inr (.inr rfl),
      fun herr => absurd herr (by simp), fun h => absurd hlossy h.2⟩
  obtain ⟨y, hy, -⟩ := rec2fnUnit_of_not_malformed hf hinvalid hlossy
  exact ⟨_, exec_rec2fn_of_ok s hf hr hy, .inl ⟨rfl, rec2fnUnit_lt hf hy⟩,
    fun _ => ⟨hinvalid, hlossy⟩, fun _ => rfl⟩

/-- Settles O27: under these tags the branch of the source reads nothing but the sign and the significand, and the latter
only where the two inputs agree. -/
theorem rec2fnIgnoresDontCareBits : Obligations.Rec2fnIgnoresDontCareBits := by
  rintro f strict r r' s fl fl' tag hf hr hr' rfl rfl rfl htag hsign hagree
  have hunit : rec2fnUnit f strict r' = rec2fnUnit f strict r := by
    obtain ⟨h0, hsig⟩ | h6 | ⟨h7, hsig⟩ := hagree
    · rw [rec2fnUnit_of_tag_zero strict h0, rec2fnUnit_of_tag_zero strict (htag.trans h0), hsign]
      cases strict with
      | true => rw [hsig rfl]
      | false => simp
    · rw [rec2fnUnit_of_tag_six strict h6, rec2fnUnit_of_tag_six strict (htag.trans h6), hsign]
    · rw [rec2fnUnit_of_tag_seven strict h7, rec2fnUnit_of_tag_seven strict (htag.trans h7), hsign, hsig]
  rw [← f.toRecodedFormat_width] at hr hr'
  obtain ⟨t, hexec, -⟩ := exec_rec2fn_recodes strict s hf hr
  refine ⟨t, t, hexec, ?_, rfl, fun _ => rfl⟩
  rw [exec_rec2fn s hf hr', hunit, ← exec_rec2fn s hf hr, hexec]

/-- Settles O28: under tags 1 to 5 every recoding is canonical, so FN2REC gives both inputs back from the one value. -/
theorem rec2fnInjectiveOnNormalTags : Obligations.Rec2fnInjectiveOnNormalTags := by
  intro f strict r r' s t t' hf htag htag' hexec hexec' herr herr' hy
  have hback : fn2recUnit f t.y true 0 = .ok r := fn2recUnit_of_exec_rec2fn 0 hf htag hexec herr
  have hback' : fn2recUnit f t'.y true 0 = .ok r' := fn2recUnit_of_exec_rec2fn 0 hf htag' hexec' herr'
  rw [hy, hback'] at hback
  exact (Except.ok.inj hback).symm

end Sys2Proof.Machine
end

section
/-! SUPPORT. FN2REC's branches as sums, what its result is to REC2FN, and when its payload ports are read (R120 to R128). -/

namespace Sys2Proof

/-- A recoded value composed of fields that fit, by the integer reading of a concatenation (R63, R85). -/
theorem IeeeFormat.recoded_buildValue_eq_ok_sum {f : IeeeFormat} {sign exp sig : Nat} (hf : f.Legal) (hsign : sign < 2)
    (hexp : exp < 2 ^ (f.e + 1)) (hsig : sig < 2 ^ (f.s - 1)) :
    f.toRecodedFormat.buildValue sign exp sig = .ok (sign * 2 ^ (f.e + f.s) + exp * 2 ^ (f.s - 1) + sig) := by
  have hwidth : f.e + f.s = f.e + 1 + f.s - 1 := by omega
  rw [hwidth]
  exact buildValue_eq_ok_sum (one_le_two.trans hf.1) hsign hexp hsig

/-- A recoded tag is at least `k` from the start of the `k`-th block of `2^(e-2)` exponents (R54). -/
theorem IeeeFormat.le_recodedTag_iff (f : IeeeFormat) (exp k : Nat) :
    k ≤ f.toRecodedFormat.tag exp ↔ k * 2 ^ (f.e - 2) ≤ exp := by
  rw [RecFormat.tag_eq, Nat.le_div_iff_mul_le (by positivity), f.toRecodedFormat_E, show f.e + 1 - 3 = f.e - 2 by omega]

/-- A significand whose top set bit is bit `s - 2 - n`, shifted by `n + 1`, is a leading one just above the field and what
the field keeps (R122). -/
theorem implicitOne_add_normalised {s n x : Nat} (hs : 2 ≤ s) (hn : n ≤ s - 2) (hlow : 2 ^ (s - 2 - n) ≤ x)
    (hhigh : x < 2 ^ (s - 1 - n)) : 2 ^ (s - 1) + x * 2 ^ (n + 1) % 2 ^ (s - 1) = x * 2 ^ (n + 1) := by
  have hone : 2 ^ (s - 1) ≤ x * 2 ^ (n + 1) := by
    calc 2 ^ (s - 1) = 2 ^ (s - 2 - n) * 2 ^ (n + 1) := by rw [← pow_add, show s - 2 - n + (n + 1) = s - 1 by omega]
      _ ≤ x * 2 ^ (n + 1) := Nat.mul_le_mul_right _ hlow
  have htop : x * 2 ^ (n + 1) < 2 ^ (s - 1) * 2 := by
    calc x * 2 ^ (n + 1) < 2 ^ (s - 1 - n) * 2 ^ (n + 1) := Nat.mul_lt_mul_of_pos_right hhigh (by positivity)
      _ = 2 ^ (s - 1) * 2 := by rw [← pow_add, ← pow_succ, show s - 1 - n + (n + 1) = s - 1 + 1 by omega]
  rw [Nat.mod_eq_sub_mod hone, Nat.mod_eq_of_lt (by omega), Nat.add_sub_cancel' hone]

end Sys2Proof

namespace Sys2Proof.Machine

variable {f : IeeeFormat} {v y pay : Nat} {det : Bool}

theorem exec_fn2rec_of_ok (s : State) (hf : f.Legal) (hv : v < 2 ^ (f.e + f.s)) (hpay : pay < 2 ^ (f.s - 1))
    (h : fn2recUnit f v det pay = .ok y) : exec (.fn2rec f v det pay) s = .next (s.deliver y) := by
  rw [exec_fn2rec s hf hv hpay, h, State.finish_ok]

/-- An evaluation of FN2REC delivers what its unit gives, on operands that fit. -/
theorem fn2recUnit_of_exec {s t : State} (h : exec (.fn2rec f v det pay) s = .next t) :
    v < 2 ^ f.width ∧ fn2recUnit f v det pay = .ok t.y := by
  obtain ⟨hw, -⟩ := exec_next h
  obtain ⟨hlegal, hfit⟩ := Bool.and_eq_true_iff.mp hw
  obtain ⟨hv, hpay⟩ := of_decide_eq_true hfit
  obtain ⟨z, hz, -⟩ := fn2recUnit_recodes v det (of_decide_eq_true hlegal) hpay
  obtain rfl : s.deliver z = t :=
    Host.Outcome.next.inj ((exec_fn2rec_of_ok s (of_decide_eq_true hlegal) hv hpay hz).symm.trans h)
  exact ⟨hv, hz⟩

/-- Whatever FN2REC gives is a recoding of its input (R126). -/
theorem recodes_of_fn2recUnit (hf : f.Legal) (hpay : pay < 2 ^ (f.s - 1)) (h : fn2recUnit f v det pay = .ok y) :
    Recodes f (f.fields v) (f.toRecodedFormat.fields y) := by
  obtain ⟨z, hz, hrec⟩ := fn2recUnit_recodes v det hf hpay
  obtain rfl : z = y := Except.ok.inj (hz.symm.trans h)
  exact hrec

/-- REC2FN undoes FN2REC, whatever the payload ports carried and STRICT_ZERO_TAG is (R113). -/
theorem rec2fnUnit_of_fn2recUnit (strict : Bool) (hf : f.Legal) (hv : v < 2 ^ f.width) (hpay : pay < 2 ^ (f.s - 1))
    (h : fn2recUnit f v det pay = .ok y) : rec2fnUnit f strict y = .ok v :=
  have hrec := recodes_of_fn2recUnit hf hpay h
  rec2fnUnit_of_recoding hf hv hrec fun _ h0 => fn2recUnit_sig_of_tag_zero hf h hrec.magnitude h0

theorem exec_rec2fn_of_fn2recUnit (strict : Bool) (s : State) (hf : f.Legal) (hv : v < 2 ^ f.width)
    (hpay : pay < 2 ^ (f.s - 1)) (h : fn2recUnit f v det pay = .ok y) :
    exec (.rec2fn f strict y) s = .next (s.deliver v) :=
  exec_rec2fn_of_ok s hf (f.toRecodedFormat_width ▸ fn2recUnit_lt hf h) (rec2fnUnit_of_fn2recUnit strict hf hv hpay h)

/-- Only the branch of the infinities reads `det_payload` and `inf_payload` (R27, R120, R125). -/
theorem fn2recUnit_payload_irrelevant (det det' : Bool) (pay pay' : Nat) (hf : f.Legal) (h : f.classify v ≠ .infinity) :
    fn2recUnit f v det' pay' = fn2recUnit f v det pay := by
  obtain hzero | ⟨hlow, hhigh⟩ | hones := f.exp_cases (fieldsOf_exp_lt f.e f.s v)
  · by_cases hz : (f.fields v).sig = 0
    · rw [fn2recUnit_of_zero det pay hf hzero hz, fn2recUnit_of_zero det' pay' hf hzero hz]
    · rw [fn2recUnit_of_subnormal det pay hf hzero hz, fn2recUnit_of_subnormal det' pay' hf hzero hz]
  · rw [fn2recUnit_of_normal det pay hlow hhigh, fn2recUnit_of_normal det' pay' hlow hhigh]
  · by_cases hz : (f.fields v).sig = 0
    · exact absurd ((IeeeFormat.classify_of_exp_ones hones).trans (if_pos hz)) h
    · rw [fn2recUnit_of_nan det pay hf.1 hones hz, fn2recUnit_of_nan det' pay' hf.1 hones hz]

/-- With `det_payload = 1` FN2REC gives canonical patterns only (R60, R128). -/
theorem canonical_of_fn2recUnit (hf : f.Legal) (hpay : pay < 2 ^ (f.s - 1)) (h : fn2recUnit f v true pay = .ok y) :
    f.toRecodedFormat.Canonical y := by
  have hs : 1 ≤ f.toRecodedFormat.s := one_le_two.trans hf.1
  have hmag := (recodes_of_fn2recUnit hf hpay h).magnitude
  have hnormal := hmag.canonical_of_normalTag hf
  cases hmag with
  | zero hexp hsig h0 =>
    rw [fn2recUnit_of_zero true pay hf hexp hsig] at h
    have hfields : f.toRecodedFormat.fields y = ⟨_, 0, 0⟩ := fieldsOf_of_buildValue hs h
    rw [canonical_iff_of_tag_zero hf h0, hfields]
    exact ⟨rfl, rfl⟩
  | subnormal _ htag => exact hnormal htag
  | normal _ _ htag => exact hnormal htag
  | infinity hexp hsig h6 =>
    rw [fn2recUnit_of_infinity true pay hexp hsig] at h
    have hfields : f.toRecodedFormat.fields y = ⟨_, 6 <<< (f.toRecodedFormat.E - 3), 0⟩ := fieldsOf_of_buildValue hs h
    rw [canonical_iff_of_tag_six hf h6, hfields]
    exact ⟨Nat.shiftLeft_eq .., rfl⟩
  | nan hexp hnz h7 =>
    rw [fn2recUnit_of_nan true pay hf.1 hexp hnz] at h
    have hfields : f.toRecodedFormat.fields y = ⟨_, 7 <<< (f.toRecodedFormat.E - 3), _⟩ := fieldsOf_of_buildValue hs h
    rw [canonical_iff_of_tag_seven hf h7, hfields]
    exact ⟨Nat.shiftLeft_eq .., hnz⟩

end Sys2Proof.Machine
end

section
/-! SUPPORT. The fields that the general path of REC2REC composes, read back from its result (R150). -/

namespace Sys2Proof.Machine

/-- Each field of the result is the one the general path computes for it (R150, R152, R155). -/
theorem fields_rec2recGeneral {a b : RecFormat} (v : Nat) (ha : a.Legal) (hb : b.Legal) :
    b.fields (rec2recGeneral a b v) =
      { sign := (a.fields v).sign
        exp := rec2recExponent a b (a.fields v).exp
        sig := rec2recSignificand a b (a.fields v).sig } := by
  obtain ⟨has, haE⟩ := ha.bounds
  obtain ⟨hbs, hbE⟩ := hb.bounds
  exact fieldsOf_concatFields (by omega) (fieldsOf_sign_lt ..)
    (rec2recExponent_lt (by omega) (by omega) (fieldsOf_exp_lt ..))
    (rec2recSignificand_lt (by omega) (by omega) (fieldsOf_sig_lt ..))

/-- REC2REC keeps the sign bit, on both of its paths (R157). -/
theorem testBit_sign_rec2recUnit {a b : RecFormat} (v : Nat) (ha : a.Legal) (hb : b.Legal) :
    (rec2recUnit a b v).testBit (b.E + b.s - 1) = v.testBit (a.E + a.s - 1) := by
  unfold rec2recUnit
  split
  · next hab => rw [hab]
  · have hsign : (b.fields (rec2recGeneral a b v)).sign = (a.fields v).sign := by rw [fields_rec2recGeneral v ha hb]
    rw [testBit_eq_decide_sign, testBit_eq_decide_sign]
    exact congrArg (fun sign => decide (sign = 1)) hsign

end Sys2Proof.Machine
end

section
/-! CERTIFICATES. The statements of 42_fn2rec.md. -/

namespace Sys2Proof.Machine

/-- Settles O29: a categorical exponent field above the payload that `det_payload` selects, or above the NaN's own
significand. -/
theorem fn2recSpecialValues : Obligations.Fn2recSpecialValues := by
  rintro f v det pay s fl hf hv hpay rfl hones
  have hsign : (f.fields v).sign < 2 := fieldsOf_sign_lt ..
  have hport : (if det then 0 else pay) < 2 ^ (f.s - 1) := by
    split
    · positivity
    · exact hpay
  refine ⟨fun hz => exec_fn2rec_of_ok s hf hv hpay ?_, fun hnz => exec_fn2rec_of_ok s hf hv hpay ?_⟩
  · rw [fn2recUnit_of_infinity det pay hones hz]
    exact IeeeFormat.buildValue_shiftedTag hf hsign (by decide) hport
  · rw [fn2recUnit_of_nan det pay hf.1 hones hnz]
    exact IeeeFormat.buildValue_shiftedTag hf hsign (by decide) (fieldsOf_sig_lt ..)

/-- Settles O30: shifted by `n + 1` the significand has its leading one just above the field, so `rexp` and `rsig` are the
fields that the counter makes FN2REC compose; the bounds of R7 leave room for them in tags 1 and 2. -/
theorem fn2recSubnormal_normalises : Obligations.Fn2recSubnormal := by
  rintro f v det pay s fl n rexp rsig hf hv hpay rfl hzero hn hlow hhigh rfl rfl
  obtain ⟨hq, hK, -, hE, hs, hbound⟩ := hf.powers
  have hmin := f.toRecodedFormat_minNormalExponent
  have hshift := implicitOne_add_normalised hs hn hlow hhigh
  have hsig : (f.fields v).sig * 2 ^ (n + 1) % 2 ^ (f.s - 1) < 2 ^ (f.s - 1) := Nat.mod_lt _ (by positivity)
  have hcount : f.toRecodedFormat.minNormalExponent - (2 ^ (f.e - 1) + 1 - n) = n + 1 := by omega
  have hunit := fn2recSubnormal_of_shift (i := f.fields v) (c := ⟨(f.fields v).sign, 2 ^ (f.e - 1) + 1 - n, _⟩)
    (fieldsOf_sig_lt ..) hsig (by dsimp only; omega) (by dsimp only; rw [hcount]; exact hshift)
  refine ⟨exec_fn2rec_of_ok s hf hv hpay ?_, ?_, by omega, by omega, ?_, hshift⟩
  · rw [fn2recUnit_of_subnormal det pay hf hzero (sig_ne_zero_of_shift hshift), hunit]
    exact IeeeFormat.recoded_buildValue_eq_ok_sum hf (fieldsOf_sign_lt ..) (by dsimp only; omega) hsig
  · have htag1 := (f.le_recodedTag_iff (2 ^ (f.e - 1) + 1 - n) 1).mpr (by omega)
    have htag3 := mt (f.le_recodedTag_iff (2 ^ (f.e - 1) + 1 - n) 3).mp (by omega)
    omega
  · rw [← implicitOne_add_mod _ (show n + 1 ≤ f.s - 1 by omega), hshift, Nat.mul_mod_left]

/-- Settles O31: only the sign is composed, and REC2FN undoes FN2REC under both settings. -/
theorem fn2recZero : Obligations.Fn2recZero := by
  intro f v det pay s hf hv hpay hexp hsig
  have hunit : fn2recUnit f v det pay = .ok ((f.fields v).sign * 2 ^ (f.e + f.s)) := by
    have hsum := IeeeFormat.recoded_buildValue_eq_ok_sum (exp := 0) (sig := 0) hf (fieldsOf_sign_lt f.e f.s v)
      (by positivity) (by positivity)
    rw [Nat.zero_mul] at hsum
    rw [fn2recUnit_of_zero det pay hf hexp hsig]
    exact hsum
  exact ⟨exec_fn2rec_of_ok s hf hv hpay hunit,
    fun strict => ⟨_, exec_rec2fn_of_fn2recUnit strict s hf hv hpay hunit, rfl⟩⟩

/-- Settles O32: the rebias by `K + 1` takes `1 .. 2K - 2` to `K + 2 .. 3K - 1`, inside tags 2 to 5. -/
theorem fn2recNormal : Obligations.Fn2recNormal := by
  rintro f v det pay s fl rexp hf hv hpay rfl hlow hhigh rfl
  obtain ⟨hq, hK, he, hE, -, -⟩ := hf.powers
  have hrebias : (f.fields v).exp - 1 + f.toRecodedFormat.minNormalExponent =
      (f.fields v).exp + 2 ^ (f.e - 1) + 1 := by
    rw [f.toRecodedFormat_minNormalExponent]
    omega
  have htag6 := mt (f.le_recodedTag_iff ((f.fields v).exp + 2 ^ (f.e - 1) + 1) 6).mp (by omega)
  refine ⟨exec_fn2rec_of_ok s hf hv hpay ?_, by omega, by omega, (f.le_recodedTag_iff _ 2).mpr (by omega), by omega⟩
  rw [fn2recUnit_of_normal det pay hlow hhigh, hrebias]
  exact IeeeFormat.recoded_buildValue_eq_ok_sum hf (fieldsOf_sign_lt ..) (by omega) (fieldsOf_sig_lt ..)

/-- Settles O33: FN2REC delivers a recoding of every input, and what it composes fits `WR` bits. -/
theorem fn2recNeverRaises : Obligations.Fn2recNeverRaises := by
  intro f v det pay s hf hv hpay
  obtain ⟨y, hy, -⟩ := fn2recUnit_recodes v det hf hpay
  exact ⟨y, f.toRecodedFormat_width ▸ fn2recUnit_lt hf hy, exec_fn2rec_of_ok s hf hv hpay hy⟩

/-- Settles O34: a recoding has the sign bit of its value, and both paths of REC2REC keep the sign field. -/
theorem signBitKeptByFn2recAndRec2rec : Obligations.SignBitKeptByFn2recAndRec2rec := by
  refine ⟨fun f v det pay s hf hv hpay => ?_, fun a b v s ha hb hv => ?_⟩
  · obtain ⟨y, hexec, hrec⟩ := exec_fn2rec_recodes det s hf hv hpay
    exact ⟨_, hexec, hrec.testBit_sign.symm⟩
  · exact ⟨_, exec_rec2rec s ha hb hv, testBit_sign_rec2recUnit v ha hb⟩

/-- Settles O35: a canonical pattern is the canonical recoding of what REC2FN makes of it, and REC2FN undoes FN2REC, so
equal recodings come from one value. -/
theorem fn2recImageIsCanonicalPatterns : Obligations.Fn2recImageIsCanonicalPatterns := by
  intro f pay s hf hpay
  refine ⟨fun r hr => ⟨fun hcanon => ?_, fun ⟨v, _, hexec⟩ => ?_⟩, fun v v' t t' hexec hexec' hy => ?_⟩
  · obtain ⟨y, hy, hrec⟩ := rec2fnUnit_of_not_malformed hf (not_invalidPattern_of_canonical hf hcanon true)
      (not_lossyPattern_of_canonical hf hcanon)
    have hv := rec2fnUnit_lt hf hy
    exact ⟨y, hv, exec_fn2rec_of_ok s hf hv hpay
      (fn2recUnit_of_canonical pay hf (f.toRecodedFormat_width ▸ hr) hrec hcanon)⟩
  · exact canonical_of_fn2recUnit hf hpay (fn2recUnit_of_exec hexec).2
  · obtain ⟨hv, hunit⟩ := fn2recUnit_of_exec hexec
    obtain ⟨hv', hunit'⟩ := fn2recUnit_of_exec hexec'
    have hback := rec2fnUnit_of_fn2recUnit true hf hv hpay hunit
    have hback' := rec2fnUnit_of_fn2recUnit true hf hv' hpay hunit'
    rw [hy, hback'] at hback
    exact (Except.ok.inj hback).symm

/-- Settles O36: FN2REC reads the payload ports for an infinity only, and REC2FN undoes it whatever they carried. -/
theorem payloadMattersForInfinityOnly : Obligations.PayloadMattersForInfinityOnly := by
  intro f v det det' strict pay pay' s hf hv hpay hpay'
  obtain ⟨y, hy, -⟩ := fn2recUnit_recodes v det hf hpay
  obtain ⟨y', hy', -⟩ := fn2recUnit_recodes v det' hf hpay'
  refine ⟨s.deliver y, s.deliver y', s.deliver v, s.deliver v, exec_fn2rec_of_ok s hf hv hpay hy,
    exec_fn2rec_of_ok s hf hv hpay' hy', fun hclass => ?_, exec_rec2fn_of_fn2recUnit strict s hf hv hpay hy,
    exec_rec2fn_of_fn2recUnit strict s hf hv hpay' hy', rfl⟩
  rw [fn2recUnit_payload_irrelevant det det' pay pay' hf hclass, hy] at hy'
  exact (Except.ok.inj hy').symm

end Sys2Proof.Machine
end

section
/-! SUPPORT. The leading-zero count as what the length of the number in bits leaves of the width, and the laws of the counter
that follow from the length of a shifted number (R140, R143, R144). -/

namespace Sys2Proof.Machine

/-! ### The length of a number -/

/-- The top bit of a field is set exactly when the number is as long as the field. -/
theorem testBit_top_iff_size {W x : Nat} (hx : x < 2 ^ (W + 1)) : x.testBit W = true ↔ x.size = W + 1 := by
  have hle : x.size ≤ W + 1 := Nat.size_le.mpr hx
  constructor
  · intro htop
    have hlt : W < x.size := Nat.lt_size.mpr (Nat.ge_two_pow_of_testBit htop)
    omega
  · intro hsize
    by_contra hclear
    have hshort : x.size ≤ W := Nat.size_le.mpr (lt_two_pow_of_testBit_false hx (by simpa using hclear))
    omega

/-- A right shift shortens a number by the bits it drops. -/
theorem size_shiftRight (x k : Nat) : (x >>> k).size = x.size - k := by
  refine eq_of_forall_ge_iff fun n => ?_
  calc (x >>> k).size ≤ n ↔ x >>> k < 2 ^ n := Nat.size_le
    _ ↔ x < 2 ^ (n + k) := by
      rw [Nat.shiftRight_eq_div_pow, Nat.div_lt_iff_lt_mul (by positivity), pow_add]
    _ ↔ x.size - k ≤ n := by rw [← Nat.size_le, Nat.sub_le_iff_le_add]

/-! ### The count -/

/-- The leading zeros and the bits from the leading one down fill the width; for zero the count is the whole of it
(R140, R143). -/
theorem clz_add_size {W x : Nat} (hx : x < 2 ^ W) : clz W x + x.size = W := by
  induction W with
  | zero =>
    have hsize : x.size ≤ 0 := Nat.size_le.mpr hx
    rw [clz_zero_width]
    omega
  | succ W ih =>
    rw [clz_succ]
    split
    case isTrue htop => rw [(testBit_top_iff_size hx).mp htop, Nat.zero_add]
    case isFalse hclear =>
      have hcount := ih (lt_two_pow_of_testBit_false hx (by simpa using hclear))
      omega

/-- A nonzero number lies between the two powers of two that its count names (R140). -/
theorem clz_bounds {W x : Nat} (hx : x < 2 ^ W) (h0 : x ≠ 0) :
    clz W x < W ∧ 2 ^ (W - 1 - clz W x) ≤ x ∧ x < 2 ^ (W - clz W x) := by
  have hcount := clz_add_size hx
  have hpos : 0 < x.size := Nat.size_pos.mpr (Nat.pos_of_ne_zero h0)
  exact ⟨clz_lt_of_ne_zero hx h0, Nat.lt_size.mp (by omega), Nat.size_le.mp (by omega)⟩

/-- Law (a) of R144. -/
theorem clz_eq_zero_iff {W x : Nat} (hW : 1 ≤ W) (hx : x < 2 ^ W) : clz W x = 0 ↔ x.testBit (W - 1) = true := by
  have hcount := clz_add_size hx
  rw [testBit_top_iff_size (by rwa [Nat.sub_add_cancel hW])]
  omega

/-- Law (b) of R144. -/
theorem clz_eq_width_iff {W x : Nat} (hx : x < 2 ^ W) : clz W x = W ↔ x = 0 := by
  have hcount := clz_add_size hx
  rw [← Nat.size_eq_zero]
  omega

/-- Law (c) of R144: shifting by the count makes a nonzero number as long as the field. -/
theorem shiftLeft_clz {W x : Nat} (hW : 1 ≤ W) (hx : x < 2 ^ W) (h0 : x ≠ 0) :
    (x <<< clz W x).testBit (W - 1) = true ∧ x <<< clz W x < 2 ^ W := by
  have hsize : (x <<< clz W x).size = W := by rw [Nat.size_shiftLeft h0, Nat.add_comm, clz_add_size hx]
  have hlt : x <<< clz W x < 2 ^ W := Nat.size_le.mp hsize.le
  refine ⟨(testBit_top_iff_size ?_).mpr ?_, hlt⟩ <;> rwa [Nat.sub_add_cancel hW]

/-- Law (d) of R144; the minimum is `W` for zero only. -/
theorem clz_shiftRight_one {W x : Nat} (hx : x < 2 ^ W) : clz W (x >>> 1) = min W (clz W x + 1) := by
  have hcount := clz_add_size hx
  have hshifted : clz W (x >>> 1) + (x >>> 1).size = W := clz_add_size ((Nat.shiftRight_le x 1).trans_lt hx)
  rw [size_shiftRight] at hshifted
  omega

/-- Law (e) of R144. -/
theorem clz_succ_of_lt {W x : Nat} (hx : x < 2 ^ W) : clz (W + 1) x = clz W x + 1 := by
  rw [clz_succ, Nat.testBit_lt_two_pow hx, if_neg Bool.false_ne_true]

/-- Law (f) of R144: a nonzero upper part decides the count alone. -/
theorem clz_add_of_upper_ne_zero {Wh Wl x : Nat} (hx : x < 2 ^ (Wh + Wl)) (hupper : x >>> Wl ≠ 0) :
    clz (Wh + Wl) x = clz Wh (x >>> Wl) := by
  have hcount := clz_add_size hx
  have hfit : x >>> Wl < 2 ^ Wh := by
    rwa [Nat.shiftRight_eq_div_pow, Nat.div_lt_iff_lt_mul (by positivity), ← pow_add]
  have hcountUpper := clz_add_size hfit
  have hpos : 0 < (x >>> Wl).size := Nat.size_pos.mpr (Nat.pos_of_ne_zero hupper)
  rw [size_shiftRight] at hcountUpper hpos
  omega

/-- Law (f) of R144: a zero upper part adds its whole width. -/
theorem clz_add_of_upper_eq_zero {Wh Wl x : Nat} (hx : x < 2 ^ (Wh + Wl)) (hupper : x >>> Wl = 0) :
    clz (Wh + Wl) x = Wh + clz Wl (x % 2 ^ Wl) := by
  have hlow : x < 2 ^ Wl := by
    rw [Nat.shiftRight_eq_div_pow] at hupper
    exact Nat.lt_of_div_eq_zero (by positivity) hupper
  have hcount := clz_add_size hx
  have hcountLower := clz_add_size hlow
  rw [Nat.mod_eq_of_lt hlow]
  omega

/-! ### The port `n` -/

/-- The port is no wider than the number `W` itself (R142). -/
theorem two_pow_outputWidth_sub_one_le {W : Nat} (hW : 1 ≤ W) : 2 ^ (clzOutputWidth W - 1) ≤ W :=
  Nat.log2_self_le (Nat.one_le_iff_ne_zero.mp hW)

/-- The port holds the count of zero, `W` (R142, R143). -/
theorem lt_two_pow_outputWidth (W : Nat) : W < 2 ^ clzOutputWidth W := Nat.lt_log2_self

end Sys2Proof.Machine
end

section
/-! CERTIFICATES. The statements of 43_clz.md. -/

namespace Sys2Proof.Machine

/-- Settles O39: CLZ delivers the count, which is the whole width for zero and names the two powers of two around any other
number. -/
theorem clzCountsLeadingZeros : Obligations.ClzCountsLeadingZeros := fun W x s hW hx =>
  ⟨clz W x, exec_clz s hW hx, (clz_eq_width_iff hx).mpr, clz_bounds hx⟩

/-- Settles O40: whatever an evaluation delivers is a count, at most `W`, and the port has as many bits as `W`. -/
theorem clzOutputWidthIsSmallestSufficient : Obligations.ClzOutputWidthIsSmallestSufficient := by
  intro W x s t hW hexec
  refine ⟨?_, two_pow_outputWidth_sub_one_le hW, lt_two_pow_outputWidth W⟩
  obtain ⟨-, ⟨v, hv, rfl⟩ | ⟨hraise, -⟩ | ⟨hraise, -⟩⟩ := exec_next hexec
  · cases hv
    exact clz_lt_two_pow_outputWidth W x
  · cases hraise
  · cases hraise

/-- Settles O41: the six laws, each from the length of the number counted. -/
theorem clzSatisfiesSixLaws : Obligations.ClzSatisfiesSixLaws := by
  refine ⟨fun W x hW hx => ⟨clz_eq_zero_iff hW hx, clz_eq_width_iff hx, shiftLeft_clz hW hx, clz_shiftRight_one hx,
    clz_succ_of_lt hx⟩, fun Wh Wl x hx => ?_⟩
  split
  case isTrue hupper => exact clz_add_of_upper_ne_zero hx hupper
  case isFalse hupper => exact clz_add_of_upper_eq_zero hx (not_not.mp hupper)

end Sys2Proof.Machine
end

section
/-! SUPPORT. The general path of REC2REC as arithmetic, that identical formats agree with it, and what it does to a tag, a
class and the top significand bit (R150 to R156). -/

namespace Sys2Proof

theorem RecFormat.fields_exp_lt (r : RecFormat) (v : Nat) : (r.fields v).exp < 2 ^ r.E := fieldsOf_exp_lt ..

theorem RecFormat.fields_sig_lt (r : RecFormat) (v : Nat) : (r.fields v).sig < 2 ^ (r.s - 1) := fieldsOf_sig_lt ..

theorem RecFormat.low_lt (r : RecFormat) (exp : Nat) : r.low exp < 2 ^ (r.E - 3) := Nat.mod_lt _ (by positivity)

end Sys2Proof

namespace Sys2Proof.Machine

variable {a b : RecFormat} {exp v : Nat}

/-! ### The three computed fields -/

/-- R153 with the biases written out. -/
theorem rec2recSum_eq (a b : RecFormat) (exp : Nat) :
    rec2recSum a b exp = (exp : Int) + 2 ^ (b.E - 1) - 2 ^ (a.E - 1) := by
  simp [rec2recSum, RecFormat.normalBias]

/-- R154 by the integer reading. -/
theorem rec2recArith_cast (a b : RecFormat) (exp : Nat) :
    (rec2recArith a b exp : Int) = rec2recSum a b exp % 2 ^ b.E := by
  have hnonneg := Int.emod_nonneg (rec2recSum a b exp) (b := ((2 ^ b.E : Nat) : Int)) (by positivity)
  rw [rec2recArith, Int.toNat_of_nonneg hnonneg, Nat.cast_pow, Nat.cast_ofNat]

theorem rec2recExponent_of_categorical (b : RecFormat) (h : a.tag exp = 0 ∨ 6 ≤ a.tag exp) :
    rec2recExponent a b exp = (a.tag exp <<< (b.E - 3)) ||| b.low (rec2recArith a b exp) := if_pos h

theorem rec2recExponent_of_normalTag (b : RecFormat) (h : a.NormalTag exp) :
    rec2recExponent a b exp = rec2recArith a b exp := if_neg (by omega)

/-- R155 by the integer reading. -/
theorem rec2recExponent_eq (a b : RecFormat) (exp : Nat) :
    rec2recExponent a b exp =
      if a.tag exp = 0 ∨ 6 ≤ a.tag exp then a.tag exp * 2 ^ (b.E - 3) + rec2recArith a b exp % 2 ^ (b.E - 3)
      else rec2recArith a b exp := by
  split
  · next h =>
    rw [rec2recExponent_of_categorical b h, ← Nat.shiftLeft_add_eq_or_of_lt (b.low_lt _), Nat.shiftLeft_eq, RecFormat.low]
  · next h => exact if_neg h

/-- R152 by the integer reading. -/
theorem rec2recSignificand_eq (a b : RecFormat) (sig : Nat) :
    rec2recSignificand a b sig = sig * 2 ^ b.s / 2 ^ a.s := by
  rw [rec2recSignificand, Nat.shiftLeft_eq, Nat.shiftRight_eq_div_pow]

theorem rec2recSignificand_of_le (sig : Nat) (h : a.s ≤ b.s) :
    rec2recSignificand a b sig = sig * 2 ^ (b.s - a.s) := by
  rw [rec2recSignificand_eq, ← Nat.sub_add_cancel h, pow_add, ← mul_assoc, Nat.mul_div_cancel _ (by positivity),
    Nat.add_sub_cancel]

theorem rec2recSignificand_of_ge (sig : Nat) (h : b.s ≤ a.s) :
    rec2recSignificand a b sig = sig / 2 ^ (a.s - b.s) := by
  rw [rec2recSignificand_eq]
  conv_lhs => rw [← Nat.sub_add_cancel h, pow_add]
  exact Nat.mul_div_mul_right _ _ (by positivity)

/-- Alignment at the most significant end keeps the top bit, the quiet bit of a NaN (R152, R155). -/
theorem testBit_top_rec2recSignificand (sig : Nat) (ha : 2 ≤ a.s) (hb : 2 ≤ b.s) :
    (rec2recSignificand a b sig).testBit (b.s - 2) = sig.testBit (a.s - 2) := by
  have hplace : a.s + (b.s - 2) - b.s = a.s - 2 := by omega
  have hin : b.s ≤ a.s + (b.s - 2) := by omega
  rw [rec2recSignificand, Nat.testBit_shiftRight, Nat.testBit_shiftLeft, hplace, decide_eq_true hin, Bool.true_and]

/-! ### Identical formats -/

/-- Without a bias difference the exponent that comes back is the one that went in (R151). -/
theorem rec2recExponent_self (h : exp < 2 ^ a.E) : rec2recExponent a a exp = exp := by
  have harith : rec2recArith a a exp = exp := by
    have hcast := rec2recArith_cast a a exp
    rw [rec2recSum_eq, add_sub_cancel_right, Int.emod_eq_of_lt (by positivity) (by exact_mod_cast h)] at hcast
    exact_mod_cast hcast
  rw [rec2recExponent_eq, harith, RecFormat.tag_eq, Nat.div_add_mod', ite_self]

theorem rec2recGeneral_self (ha : a.Legal) (hv : v < 2 ^ a.width) : rec2recGeneral a a v = v := by
  obtain ⟨hs, -⟩ := ha.bounds
  have hsig : rec2recSignificand a a (a.fields v).sig = (a.fields v).sig := Nat.shiftLeft_shiftRight _ _
  rw [rec2recGeneral, rec2recExponent_self (a.fields_exp_lt v), hsig]
  exact concatFields_fieldsOf (one_le_two.trans hs) hv

/-- So R151's short cut changes no result, and the unit is the general path (R150). -/
theorem rec2recUnit_eq_general (b : RecFormat) (ha : a.Legal) (hv : v < 2 ^ a.width) :
    rec2recUnit a b v = rec2recGeneral a b v := by
  unfold rec2recUnit
  split
  · next hab =>
    subst hab
    exact (rec2recGeneral_self ha hv).symm
  · rfl

theorem exec_rec2rec_general (s : State) (ha : a.Legal) (hb : b.Legal) (hv : v < 2 ^ a.width) :
    exec (.rec2rec a b v) s = .next (s.deliver (rec2recGeneral a b v)) := by
  rw [exec_rec2rec s ha hb hv, rec2recUnit_eq_general b ha hv]

theorem rec2recGeneral_lt (ha : a.Legal) (hb : b.Legal) (hv : v < 2 ^ a.width) : rec2recGeneral a b v < 2 ^ b.width :=
  rec2recUnit_eq_general b ha hv ▸ rec2recUnit_lt ha hb hv

/-- R150's concatenation by the integer reading. -/
theorem rec2recGeneral_eq_sum (v : Nat) (ha : a.Legal) (hb : b.Legal) :
    rec2recGeneral a b v =
      (a.fields v).sign * 2 ^ (b.E + b.s - 1) + rec2recExponent a b (a.fields v).exp * 2 ^ (b.s - 1) +
        (a.fields v).sig * 2 ^ b.s / 2 ^ a.s := by
  obtain ⟨has, haE⟩ := ha.bounds
  obtain ⟨hbs, hbE⟩ := hb.bounds
  rw [← rec2recSignificand_eq]
  exact concatFields_eq (by omega) (rec2recExponent_lt (by omega) (by omega) (a.fields_exp_lt v))
    (rec2recSignificand_lt (by omega) (by omega) (a.fields_sig_lt v))

/-! ### Zeros, infinities and NaNs -/

/-- Tags 0, 6 and 7 are written back on top (R155). -/
theorem tag_rec2recGeneral_of_categorical (ha : a.Legal) (hb : b.Legal)
    (h : a.tag (a.fields v).exp = 0 ∨ 6 ≤ a.tag (a.fields v).exp) :
    b.tag (b.fields (rec2recGeneral a b v)).exp = a.tag (a.fields v).exp := by
  rw [fields_rec2recGeneral v ha hb, rec2recExponent_of_categorical b h]
  exact (RecFormat.tag_low_append (b.low_lt _)).1

/-- A tag of 0, 6 or 7 is the whole class (R55, R56). -/
theorem classify_rec2recGeneral_of_categorical (ha : a.Legal) (hb : b.Legal)
    (h : a.tag (a.fields v).exp = 0 ∨ 6 ≤ a.tag (a.fields v).exp) :
    b.classify (rec2recGeneral a b v) = a.classify v := by
  have htag := tag_rec2recGeneral_of_categorical ha hb h
  obtain ⟨-, haE⟩ := ha.bounds
  obtain h0 | h6 | h7 | hnormal := RecFormat.tag_cases (r := a) (by omega) (a.fields_exp_lt v)
  · rw [RecFormat.classify_of_tag_zero h0, RecFormat.classify_of_tag_zero (htag.trans h0)]
  · rw [RecFormat.classify_of_tag_six h6, RecFormat.classify_of_tag_six (htag.trans h6)]
  · rw [RecFormat.classify_of_tag_seven h7, RecFormat.classify_of_tag_seven (htag.trans h7)]
  · exact absurd hnormal (by omega)

/-- Zero `low` bits stay zero when the exponent gets no wider: the bias difference is a multiple of the block of one tag of
the destination (R159). -/
theorem low_rec2recArith_eq_zero (hb : b.Legal) (hE : b.E ≤ a.E) (h : a.low exp = 0) :
    b.low (rec2recArith a b exp) = 0 := by
  obtain ⟨-, hbE⟩ := hb.bounds
  have hexp : (2 : Int) ^ (b.E - 3) ∣ exp := by
    exact_mod_cast (pow_dvd_pow 2 (by omega)).trans (Nat.dvd_of_mod_eq_zero h)
  have hsum : (2 : Int) ^ (b.E - 3) ∣ rec2recSum a b exp := by
    rw [rec2recSum_eq]
    exact dvd_sub (dvd_add hexp (pow_dvd_pow 2 (by omega))) (pow_dvd_pow 2 (by omega))
  have harith : (2 : Int) ^ (b.E - 3) ∣ rec2recArith a b exp := by
    rw [rec2recArith_cast]
    exact (EuclideanDomain.dvd_mod_iff (pow_dvd_pow 2 (Nat.sub_le ..))).mpr hsum
  exact Nat.mod_eq_zero_of_dvd (by exact_mod_cast harith)

theorem low_rec2recExponent_eq_zero (hb : b.Legal) (hE : b.E ≤ a.E) (htag : a.tag exp = 0 ∨ 6 ≤ a.tag exp)
    (h : a.low exp = 0) : b.low (rec2recExponent a b exp) = 0 := by
  rw [rec2recExponent_of_categorical b htag, (RecFormat.tag_low_append (b.low_lt _)).2,
    low_rec2recArith_eq_zero hb hE h]

end Sys2Proof.Machine
end

section
/-! CERTIFICATES. The statements of 44_rec2rec.md about the fields of the result. -/

namespace Sys2Proof.Machine

/-- Settles O42: the general path composes the sign and the two computed fields, each by its integer reading. -/
theorem rec2recResult : Obligations.Rec2recResult := by
  rintro a b v s _ tag arith nexp ha hb hv rfl rfl harith rfl
  obtain rfl : rec2recArith a b (a.fields v).exp = arith := by
    rw [← rec2recSum_eq, ← rec2recArith_cast] at harith
    exact_mod_cast harith.symm
  rw [exec_rec2rec_general s ha hb hv, rec2recGeneral_eq_sum v ha hb, rec2recExponent_eq, RecFormat.tag_eq]
  rfl

/-- Settles O43: the short cut is taken, and the general path has nothing to re-bias or to shift. -/
theorem rec2recIdenticalFormats : Obligations.Rec2recIdenticalFormats := by
  intro a v s ha hv
  have hself := rec2recGeneral_self ha hv
  refine ⟨?_, hself⟩
  rw [exec_rec2rec_general s ha ha hv, hself]
  rfl

/-- Settles O44: the three readings are those of the computed significand. -/
theorem rec2recSignificandField : Obligations.Rec2recSignificandField := by
  intro a b v s ha hb hv
  refine ⟨_, exec_rec2rec_general s ha hb hv, rfl, ?_⟩
  rw [State.deliver_y, fields_rec2recGeneral v ha hb]
  exact ⟨rec2recSignificand_eq .., rec2recSignificand_of_le _, fun h => rec2recSignificand_of_ge _ h.le⟩

/-- Settles O45: the tag is written back on top of low bits that a multiple of the tag's block leaves zero, and the
significand is aligned at its top. -/
theorem rec2recKeepsCategoricalTags : Obligations.Rec2recKeepsCategoricalTags := by
  intro a b v s ha hb hv htag
  refine ⟨_, exec_rec2rec_general s ha hb hv, tag_rec2recGeneral_of_categorical ha hb htag,
    classify_rec2recGeneral_of_categorical ha hb htag, ?_⟩
  rw [State.deliver_y, fields_rec2recGeneral v ha hb]
  exact ⟨testBit_top_rec2recSignificand _ ha.bounds.1 hb.bounds.1,
    fun hE hlow => low_rec2recExponent_eq_zero hb hE htag hlow⟩

/-- Settles O46: the general path checks nothing, keeps tag 7 and shifts a zero significand to zero. -/
theorem rec2recNeverRaises : Obligations.Rec2recNeverRaises := by
  intro a b v s ha hb hv
  refine ⟨_, rec2recGeneral_lt ha hb hv, exec_rec2rec_general s ha hb hv, fun h7 hz => ⟨?_, ?_⟩⟩
  · rw [tag_rec2recGeneral_of_categorical ha hb (by omega), h7]
  · rw [fields_rec2recGeneral v ha hb]
    simp [rec2recSignificand, hz]

end Sys2Proof.Machine
end

section
/-! SUPPORT. When a REC2REC result denotes the number of its input (R59, R158). -/

namespace Sys2Proof

/-! ### Thresholds as numbers of tags -/

/-- `K` spans two tags (R8, R54). -/
theorem RecFormat.K_eq_tags {r : RecFormat} (hE : 3 ≤ r.E) : r.K = 2 * 2 ^ (r.E - 3) := by
  rw [K, ← pow_succ', show r.E - 3 + 1 = r.E - 2 by omega]

/-- The bias spans four tags (R54, R153). -/
theorem RecFormat.normalBias_eq_tags {r : RecFormat} (hE : 3 ≤ r.E) : r.normalBias = 4 * 2 ^ (r.E - 3) := by
  rw [normalBias, show r.E - 1 = 2 + (r.E - 3) by omega, pow_add]
  rfl

/-! ### Normalised numbers -/

/-- A significand with its implicit one lies in `[1, 2)` (R59). -/
theorem one_le_significandValue {p sig : Nat} (h : sig < 2 ^ p) :
    1 ≤ 1 + (sig : ℚ) / 2 ^ p ∧ 1 + (sig : ℚ) / 2 ^ p < 2 := by
  have hlt : (sig : ℚ) / 2 ^ p < 1 := by
    rw [div_lt_one (by positivity)]
    exact_mod_cast h
  have hnonneg : 0 ≤ (sig : ℚ) / 2 ^ p := by positivity
  constructor <;> linarith

/-- The greater significand cannot make up for a smaller power of two. -/
theorem exponent_le_of_normalised_eq {i j : ℤ} {x y : ℚ} (hx : 1 ≤ x) (hy : y < 2) (h : 2 ^ i * x = 2 ^ j * y) :
    i ≤ j := by
  have hlt : (2 : ℚ) ^ i < 2 ^ (j + 1) := by
    calc (2 : ℚ) ^ i ≤ 2 ^ i * x := le_mul_of_one_le_right (by positivity) hx
      _ = 2 ^ j * y := h
      _ < 2 ^ j * 2 := by gcongr
      _ = 2 ^ (j + 1) := (zpow_add_one₀ two_ne_zero j).symm
  exact Int.lt_add_one_iff.mp ((zpow_lt_zpow_iff_right₀ one_lt_two).mp hlt)

/-- A number has one normalised form. -/
theorem normalised_eq_iff {i j : ℤ} {x y : ℚ} (hx : 1 ≤ x ∧ x < 2) (hy : 1 ≤ y ∧ y < 2) :
    2 ^ i * x = 2 ^ j * y ↔ i = j ∧ x = y := by
  constructor
  · intro h
    obtain rfl : i = j := le_antisymm (exponent_le_of_normalised_eq hx.1 hy.2 h)
      (exponent_le_of_normalised_eq hy.1 hx.2 h.symm)
    exact ⟨rfl, mul_left_cancel₀ (by positivity) h⟩
  · rintro ⟨rfl, rfl⟩
    rfl

theorem signFactor_ne_zero (sign : Nat) : signFactor sign ≠ 0 := pow_ne_zero _ (by norm_num)

/-! ### What patterns denote -/

/-- Under tags 1 to 5 patterns of one sign denote the same number exactly when both parts of their normalised
forms agree (R59). -/
theorem RecFormat.denote_eq_iff_of_normalTags {a b : RecFormat} {v w : Nat} (hv : a.NormalTag (a.fields v).exp)
    (hw : b.NormalTag (b.fields w).exp) (hsign : (b.fields w).sign = (a.fields v).sign) :
    b.denote w = a.denote v ↔
      ((b.fields w).exp : ℤ) - 2 ^ (b.E - 1) = (a.fields v).exp - 2 ^ (a.E - 1) ∧
      ((b.fields w).sig : ℚ) / 2 ^ (b.s - 1) = (a.fields v).sig / 2 ^ (a.s - 1) := by
  rw [denote_of_normalTag hv, denote_of_normalTag hw, hsign, Option.some_inj, mul_right_inj' (signFactor_ne_zero _),
    normalised_eq_iff (one_le_significandValue (b.fields_sig_lt w)) (one_le_significandValue (a.fields_sig_lt v)),
    add_right_inj]

/-- Under tags 0, 6 and 7 a pattern denotes zero or nothing, and under tags 1 to 5 a number other than zero (R55, R59). -/
theorem RecFormat.normalTag_of_denote_eq {a b : RecFormat} {v w : Nat} (hE : 3 ≤ b.E)
    (hv : a.NormalTag (a.fields v).exp) (h : b.denote w = a.denote v) : b.NormalTag (b.fields w).exp := by
  obtain ⟨hone, -⟩ := one_le_significandValue (a.fields_sig_lt v)
  have hne : signFactor (a.fields v).sign *
      (2 ^ (((a.fields v).exp : ℤ) - 2 ^ (a.E - 1)) * (1 + ((a.fields v).sig : ℚ) / 2 ^ (a.s - 1))) ≠ 0 :=
    mul_ne_zero (signFactor_ne_zero _) (by positivity)
  rw [denote_of_normalTag hv] at h
  obtain h0 | h6 | h7 | hnormal := tag_cases hE (b.fields_exp_lt w)
  · simp only [denote, classify_of_tag_zero h0, Option.some_inj] at h
    exact absurd h.symm hne
  · simp [denote, classify_of_tag_six h6] at h
  · simp [denote, classify_of_tag_seven h7] at h
  · exact hnormal

/-- So a pattern denotes the number of one under tags 1 to 5 exactly when it has such a tag itself and both parts agree. -/
theorem RecFormat.denote_eq_iff_of_normalTag {a b : RecFormat} {v w : Nat} (hE : 3 ≤ b.E)
    (hv : a.NormalTag (a.fields v).exp) (hsign : (b.fields w).sign = (a.fields v).sign) :
    b.denote w = a.denote v ↔ b.NormalTag (b.fields w).exp ∧
      ((b.fields w).exp : ℤ) - 2 ^ (b.E - 1) = (a.fields v).exp - 2 ^ (a.E - 1) ∧
      ((b.fields w).sig : ℚ) / 2 ^ (b.s - 1) = (a.fields v).sig / 2 ^ (a.s - 1) := by
  constructor
  · intro h
    have hw := normalTag_of_denote_eq hE hv h
    exact ⟨hw, (denote_eq_iff_of_normalTags hv hw hsign).mp h⟩
  · rintro ⟨hw, hparts⟩
    exact (denote_eq_iff_of_normalTags hv hw hsign).mpr hparts

/-- Zeros, infinities and NaNs denote what their class says (R55, R59). -/
theorem RecFormat.denote_eq_of_categorical {a b : RecFormat} {v w : Nat} (hE : 3 ≤ a.E)
    (hv : a.tag (a.fields v).exp = 0 ∨ 6 ≤ a.tag (a.fields v).exp) (h : b.classify w = a.classify v) :
    b.denote w = a.denote v := by
  obtain h0 | h6 | h7 | hnormal := tag_cases hE (a.fields_exp_lt v)
  · simp only [denote, h, classify_of_tag_zero h0]
  · simp only [denote, h, classify_of_tag_six h6]
  · simp only [denote, h, classify_of_tag_seven h7]
  · exact absurd hnormal (by omega)

end Sys2Proof

namespace Sys2Proof.Machine

variable {a b : RecFormat}

/-! ### The two conditions of R158 -/

/-- Condition (a): realigned, the significand keeps its value exactly when the bits dropped are zero (R152). -/
theorem rec2recSignificand_value_iff (sig : Nat) (ha : 1 ≤ a.s) (hb : 1 ≤ b.s) :
    (rec2recSignificand a b sig : ℚ) / 2 ^ (b.s - 1) = (sig : ℚ) / 2 ^ (a.s - 1) ↔ sig % 2 ^ (a.s - b.s) = 0 := by
  have hcross : (rec2recSignificand a b sig : ℚ) / 2 ^ (b.s - 1) = (sig : ℚ) / 2 ^ (a.s - 1) ↔
      rec2recSignificand a b sig * 2 ^ (a.s - 1) = sig * 2 ^ (b.s - 1) := by
    rw [div_eq_div_iff (by positivity) (by positivity)]
    exact_mod_cast Iff.rfl
  rw [hcross]
  obtain hle | hge := le_total a.s b.s
  · rw [rec2recSignificand_of_le sig hle, mul_assoc, ← pow_add, show b.s - a.s + (a.s - 1) = b.s - 1 by omega,
      Nat.sub_eq_zero_of_le hle, pow_zero, Nat.mod_one]
    simp
  · rw [rec2recSignificand_of_ge sig hge, show a.s - 1 = a.s - b.s + (b.s - 1) by omega, pow_add, ← mul_assoc,
      Nat.mul_left_inj (by positivity), ← Nat.dvd_iff_mod_eq_zero]
    exact ⟨fun h => Dvd.intro_left _ h, Nat.div_mul_cancel⟩

/-- Condition (b): the reduced exponent is the sum, under a tag of 1 to 5, exactly when the sum lies there (R154). -/
theorem normalTag_rec2recArith_iff (exp : Nat) (hE : 3 ≤ b.E) :
    b.NormalTag (rec2recArith a b exp) ∧ (rec2recArith a b exp : ℤ) = rec2recSum a b exp ↔
      2 ^ (b.E - 3) ≤ rec2recSum a b exp ∧ rec2recSum a b exp ≤ 3 * 2 ^ (b.E - 2) - 1 := by
  have htags : (2 : ℤ) ^ b.E = 8 * 2 ^ (b.E - 3) := by exact_mod_cast RecFormat.two_pow_E hE
  have hK : (2 : ℤ) ^ (b.E - 2) = 2 * 2 ^ (b.E - 3) := by exact_mod_cast RecFormat.K_eq_tags hE
  have hpos : (0 : ℤ) < 2 ^ (b.E - 3) := by positivity
  have hcast : ((2 ^ (b.E - 3) : ℕ) : ℤ) = 2 ^ (b.E - 3) := by simp
  rw [RecFormat.normalTag_iff]
  constructor
  · rintro ⟨⟨hlow, hhigh⟩, hsum⟩
    omega
  · rintro ⟨hlow, hhigh⟩
    have harith : (rec2recArith a b exp : ℤ) = rec2recSum a b exp := by
      rw [rec2recArith_cast, Int.emod_eq_of_lt (by omega) (by omega)]
    omega

/-- R158: under tags 1 to 5 the general path keeps the number exactly under both conditions. -/
theorem denote_rec2recGeneral_iff {v : Nat} (ha : a.Legal) (hb : b.Legal) (htag : a.NormalTag (a.fields v).exp) :
    b.denote (rec2recGeneral a b v) = a.denote v ↔ Rec2recKeepsNumber a b v := by
  obtain ⟨has, -⟩ := ha.bounds
  obtain ⟨hbs, hbE⟩ := hb.bounds
  have hsum : (rec2recArith a b (a.fields v).exp : ℤ) - 2 ^ (b.E - 1) = (a.fields v).exp - 2 ^ (a.E - 1) ↔
      (rec2recArith a b (a.fields v).exp : ℤ) = rec2recSum a b (a.fields v).exp := by
    rw [rec2recSum_eq]
    constructor <;> intro h <;> linarith
  rw [RecFormat.denote_eq_iff_of_normalTag (by omega) htag (by rw [fields_rec2recGeneral v ha hb]),
    fields_rec2recGeneral v ha hb, rec2recExponent_of_normalTag b htag, hsum,
    rec2recSignificand_value_iff _ (by omega) (by omega), ← and_assoc, normalTag_rec2recArith_iff _ (by omega), and_comm]

end Sys2Proof.Machine
end

section
/-! SUPPORT. Widening: into a wider exponent and a significand at least as wide, REC2REC keeps the number and leaves REC2FN
nothing to turn away (R158, R195). -/

namespace Sys2Proof

theorem IeeeFormat.Legal.toRecodedFormat {f : IeeeFormat} (h : f.Legal) : f.toRecodedFormat.Legal := h

/-- Under tags 1 to 5 a pattern is no zero, infinity or NaN (R55, R56). -/
theorem RecFormat.classify_ne_of_normalTag {r : RecFormat} {v : Nat} {c : FloatClass} (h : r.NormalTag (r.fields v).exp)
    (hsub : c ≠ .subnormal) (hnormal : c ≠ .normal) : r.classify v ≠ c := by
  rw [classify_of_normalTag h]
  split
  · exact hsub.symm
  · exact hnormal.symm

end Sys2Proof

namespace Sys2Proof.Machine

section
variable {a b : RecFormat} {exp v : Nat} {strict : Bool} (ha : a.Legal) (hb : b.Legal) (hE : a.E < b.E)
include ha hb hE

/-- Every exponent under tags 1 to 5 lands among the normals of a format with a wider exponent: one tag of the
destination holds at least two of the source's (R54, R58, R153). -/
theorem rec2recSum_of_wider (h : a.NormalTag exp) :
    (b.minNormalExponent : ℤ) ≤ rec2recSum a b exp ∧
      2 ^ (b.E - 3) ≤ rec2recSum a b exp ∧ rec2recSum a b exp ≤ 3 * 2 ^ (b.E - 2) - 1 := by
  obtain ⟨-, haE⟩ := ha.bounds
  obtain ⟨-, hbE⟩ := hb.bounds
  have hpos : 2 ^ 1 ≤ 2 ^ (a.E - 3) := Nat.pow_le_pow_right Nat.zero_lt_two (by omega)
  have hwider : 2 ^ (a.E - 3 + 1) ≤ 2 ^ (b.E - 3) := Nat.pow_le_pow_right Nat.zero_lt_two (by omega)
  have hbiasA : a.normalBias = 4 * 2 ^ (a.E - 3) := RecFormat.normalBias_eq_tags (by omega)
  have hbiasB : b.normalBias = 4 * 2 ^ (b.E - 3) := RecFormat.normalBias_eq_tags (by omega)
  have hK : 2 ^ (b.E - 2) = 2 * 2 ^ (b.E - 3) := RecFormat.K_eq_tags (by omega)
  have hmin : b.minNormalExponent = 2 ^ (b.E - 2) + 2 := rfl
  have hcast : (2 : ℤ) ^ (b.E - 3) = (2 ^ (b.E - 3) : ℕ) ∧ (2 : ℤ) ^ (b.E - 2) = (2 ^ (b.E - 2) : ℕ) := by simp
  rw [pow_succ] at hwider
  rw [RecFormat.normalTag_iff] at h
  unfold rec2recSum
  omega

/-- So the result has a tag of 1 to 5 and lies above the subnormal band. -/
theorem exp_rec2recGeneral_of_wider (h : a.NormalTag (a.fields v).exp) :
    b.NormalTag (b.fields (rec2recGeneral a b v)).exp ∧
      b.minNormalExponent ≤ (b.fields (rec2recGeneral a b v)).exp := by
  obtain ⟨-, hbE⟩ := hb.bounds
  obtain ⟨hmin, hrange⟩ := rec2recSum_of_wider ha hb hE h
  obtain ⟨htag, hsum⟩ := (normalTag_rec2recArith_iff _ (by omega)).mpr hrange
  rw [fields_rec2recGeneral v ha hb, rec2recExponent_of_normalTag b h]
  exact ⟨htag, by exact_mod_cast hmin.trans_eq hsum.symm⟩

/-- Everything a tag can become: 0, 6 and 7 stay, and 1 to 5 become one of these, of a normal (R155, R158). -/
theorem tag_rec2recGeneral_cases_of_wider (v : Nat) :
    ((a.tag (a.fields v).exp = 0 ∨ 6 ≤ a.tag (a.fields v).exp) ∧
      b.tag (b.fields (rec2recGeneral a b v)).exp = a.tag (a.fields v).exp) ∨
    (a.NormalTag (a.fields v).exp ∧ b.NormalTag (b.fields (rec2recGeneral a b v)).exp ∧
      b.minNormalExponent ≤ (b.fields (rec2recGeneral a b v)).exp) := by
  by_cases h : a.NormalTag (a.fields v).exp
  · exact .inr ⟨h, exp_rec2recGeneral_of_wider ha hb hE h⟩
  · have hcat : a.tag (a.fields v).exp = 0 ∨ 6 ≤ a.tag (a.fields v).exp := by omega
    exact .inl ⟨hcat, tag_rec2recGeneral_of_categorical ha hb hcat⟩

theorem denote_rec2recGeneral_of_wider (hs : a.s ≤ b.s) (v : Nat) :
    b.denote (rec2recGeneral a b v) = a.denote v := by
  obtain ⟨hcat, -⟩ | ⟨h, -, -⟩ := tag_rec2recGeneral_cases_of_wider ha hb hE v
  · exact RecFormat.denote_eq_of_categorical (ha.bounds.2.trans' (by decide)) hcat
      (classify_rec2recGeneral_of_categorical ha hb hcat)
  · have hkeeps : (a.fields v).sig % 2 ^ (a.s - b.s) = 0 := by
      rw [Nat.sub_eq_zero_of_le hs, pow_zero, Nat.mod_one]
    exact (denote_rec2recGeneral_iff ha hb h).mpr ⟨hkeeps, (rec2recSum_of_wider ha hb hE h).2⟩

/-- The zeros, infinities and NaNs among the results are those of the sources. -/
theorem classify_rec2recGeneral_eq_iff_of_wider (v : Nat) {c : FloatClass} (hsub : c ≠ .subnormal)
    (hnormal : c ≠ .normal) : b.classify (rec2recGeneral a b v) = c ↔ a.classify v = c := by
  obtain ⟨hcat, -⟩ | ⟨hv, hresult, -⟩ := tag_rec2recGeneral_cases_of_wider ha hb hE v
  · rw [classify_rec2recGeneral_of_categorical ha hb hcat]
  · exact iff_of_false (RecFormat.classify_ne_of_normalTag hresult hsub hnormal)
      (RecFormat.classify_ne_of_normalTag hv hsub hnormal)

/-- No widened pattern lies in the band where REC2FN shifts bits out (R107, R174). -/
theorem not_lossyPattern_of_wider (v : Nat) : ¬ b.LossyPattern (rec2recGeneral a b v) := by
  rintro ⟨htag, -, hhigh, -⟩
  obtain ⟨hcat, hkept⟩ | ⟨-, -, hmin⟩ := tag_rec2recGeneral_cases_of_wider ha hb hE v
  · omega
  · exact absurd hhigh hmin.not_gt

/-- A widened significand is zero only if the source's is, so no zero or NaN becomes invalid (R61, R152). -/
theorem not_invalidPattern_of_wider (hs : a.s ≤ b.s) (h : ¬ a.InvalidPattern strict v) :
    ¬ b.InvalidPattern strict (rec2recGeneral a b v) := by
  have hsig : (b.fields (rec2recGeneral a b v)).sig = 0 ↔ (a.fields v).sig = 0 := by
    rw [fields_rec2recGeneral v ha hb, rec2recSignificand_of_le _ hs]
    exact mul_eq_zero_iff_right (by positivity)
  obtain ⟨hcat, hkept⟩ | ⟨-, htag, hmin⟩ := tag_rec2recGeneral_cases_of_wider ha hb hE v
  · rintro (⟨h7, hz⟩ | ⟨hnormal, -⟩ | ⟨hstrict, h0, hnz⟩)
    · exact h (.inl ⟨hkept ▸ h7, hsig.mp hz⟩)
    · omega
    · exact h (.inr (.inr ⟨hstrict, hkept ▸ h0, mt hsig.mpr hnz⟩))
  · rintro (⟨h7, -⟩ | ⟨-, hbelow⟩ | ⟨-, h0, -⟩)
    · omega
    · exact absurd (hbelow.trans_le (Nat.sub_le ..)) hmin.not_gt
    · omega

end

/-- FN2REC gives no pattern that REC2FN turns away (R90, R113). -/
theorem not_invalidPattern_of_fn2recUnit {f : IeeeFormat} {v y pay : Nat} {det : Bool} (strict : Bool) (hf : f.Legal)
    (hv : v < 2 ^ f.width) (hpay : pay < 2 ^ (f.s - 1)) (h : fn2recUnit f v det pay = .ok y) :
    ¬ f.toRecodedFormat.InvalidPattern strict y := by
  intro hinvalid
  have herr := rec2fnUnit_of_invalidPattern hf hinvalid
  rw [rec2fnUnit_of_fn2recUnit strict hf hv hpay h] at herr
  cases herr

end Sys2Proof.Machine
end

section
/-! CERTIFICATES. The statements of 44_rec2rec.md about the number and the class of the result (section 3). -/

namespace Sys2Proof.Machine

/-- Settles O47: normalised forms are unique, so the result must have a tag of 1 to 5, the exponent sum itself and the
whole significand. -/
theorem rec2recKeepsNumberExactlyWhen : Obligations.Rec2recKeepsNumberExactlyWhen := fun _ _ _ s ha hb hv htag =>
  ⟨_, exec_rec2rec_general s ha hb hv, denote_rec2recGeneral_iff ha hb htag⟩

/-- Settles O48: the widened pattern is not malformed and stands for what FN2REC's result does, and both converters relate a
value to its recoding. -/
theorem wideningKeepsNumber : Obligations.WideningKeepsNumber := by
  intro f g v det strict pay s hf hg he hs hv hpay
  have ha := hf.toRecodedFormat
  have hb := hg.toRecodedFormat
  have hE : f.toRecodedFormat.E < g.toRecodedFormat.E := Nat.succ_lt_succ he
  obtain ⟨y, hy, hrec⟩ := fn2recUnit_recodes v det hf hpay
  have hyw := fn2recUnit_lt hf hy
  obtain ⟨w, hw, hrec'⟩ := rec2fnUnit_of_not_malformed hg
    (not_invalidPattern_of_wider ha hb hE hs (not_invalidPattern_of_fn2recUnit strict hf hv hpay hy))
    (not_lossyPattern_of_wider ha hb hE y)
  have hclass {c : FloatClass} (hsub : c ≠ .subnormal) (hnormal : c ≠ .normal) :
      g.classify w = c ↔ f.classify v = c := by
    rw [← hrec.magnitude.classify_eq hf, ← hrec'.magnitude.classify_eq hg]
    exact classify_rec2recGeneral_eq_iff_of_wider ha hb hE y hsub hnormal
  refine ⟨_, _, _, exec_fn2rec_of_ok s hf hv hpay hy, exec_rec2rec_general _ ha hb hyw,
    exec_rec2fn_of_ok _ hg (g.toRecodedFormat_width ▸ rec2recGeneral_lt ha hb hyw) hw, rfl, ?_, ?_,
    hclass (by decide) (by decide), hclass (by decide) (by decide), hclass (by decide) (by decide)⟩
  · calc g.denote w = g.toRecodedFormat.denote (rec2recGeneral f.toRecodedFormat g.toRecodedFormat y) :=
        (hrec'.denote_eq hg).symm
      _ = f.toRecodedFormat.denote y := denote_rec2recGeneral_of_wider ha hb hE hs y
      _ = f.denote v := hrec.denote_eq hf
  · have hsign := hrec'.sign
    rw [fields_rec2recGeneral y ha hb] at hsign
    exact hsign.symm.trans hrec.sign

end Sys2Proof.Machine
end

section
/-! SUPPORT. Which code REC2FN reports on which pattern, as an equivalence (R171, R173, R174), and the patterns on either
side of the lower end of the subnormal band (R106, R107). -/

namespace Sys2Proof

/-- The band test is made first, so no pattern has both conditions (R106, R177). -/
theorem RecFormat.LossyPattern.not_invalidPattern {r : RecFormat} {v : Nat} (h : r.LossyPattern v) (strict : Bool) :
    ¬ r.InvalidPattern strict v := by
  obtain ⟨⟨hlow, hhigh⟩, hband, -, -⟩ := h
  rintro (⟨h7, -⟩ | ⟨-, hbelow⟩ | ⟨-, h0, -⟩)
  · omega
  · exact absurd hbelow hband.not_gt
  · omega

/-- At the lowest exponent of the band the shift is as long as the significand, whose leading one it loses (R107). -/
theorem IeeeFormat.lossyPattern_of_lowestExponent {f : IeeeFormat} {r : Nat} (hf : f.Legal)
    (htag : f.toRecodedFormat.NormalTag (f.toRecodedFormat.fields r).exp)
    (hexp : (f.toRecodedFormat.fields r).exp = f.toRecodedFormat.minSubnormalExponent) :
    f.toRecodedFormat.LossyPattern r := by
  have hminSub := f.toRecodedFormat_minSubnormalExponent
  have hmin := f.toRecodedFormat_minNormalExponent
  obtain ⟨hq, hK, -, -, hs, hbound⟩ := hf.powers
  have hshift : f.toRecodedFormat.minNormalExponent - (f.toRecodedFormat.fields r).exp = f.s := by omega
  have htwice : 2 ^ f.s = 2 * 2 ^ (f.s - 1) := by rw [← pow_succ', Nat.sub_add_cancel (one_le_two.trans hs)]
  have hpos : 0 < 2 ^ (f.s - 1) := by positivity
  have hsig := f.toRecodedFormat_sig_lt r
  have hfits : 2 ^ (f.s - 1) + (f.toRecodedFormat.fields r).sig < 2 ^ f.s := by omega
  refine ⟨htag, hexp.ge, by omega, ?_⟩
  rw [hshift, f.toRecodedFormat_s, Nat.mod_eq_of_lt hfits]
  omega

end Sys2Proof

namespace Sys2Proof.Machine

/-- REC2FN reports each code on exactly the patterns that have its condition (R61, R173, R174). -/
theorem exec_rec2fn_err_iff {f : IeeeFormat} {r : Nat} (strict : Bool) (s : State) (hf : f.Legal)
    (hr : r < 2 ^ (f.e + f.s + 1)) :
    ∃ t, exec (.rec2fn f strict r) s = .next t ∧
      (t.err = 1#2 ↔ f.toRecodedFormat.InvalidPattern strict r) ∧ (t.err = 2#2 ↔ f.toRecodedFormat.LossyPattern r) := by
  by_cases hinvalid : f.toRecodedFormat.InvalidPattern strict r
  · exact ⟨_, exec_rec2fn_of_invalidPattern s hf hr hinvalid, iff_of_true rfl hinvalid,
      iff_of_false (by simp) fun hlossy => hlossy.not_invalidPattern strict hinvalid⟩
  by_cases hlossy : f.toRecodedFormat.LossyPattern r
  · exact ⟨_, exec_rec2fn_of_lossyPattern strict s hf hr hlossy, iff_of_false (by simp) hinvalid, iff_of_true rfl hlossy⟩
  obtain ⟨y, hy, -⟩ := rec2fnUnit_of_not_malformed hf hinvalid hlossy
  exact ⟨_, exec_rec2fn_of_ok s hf hr hy, iff_of_false (by simp) hinvalid, iff_of_false (by simp) hlossy⟩

/-- REC2REC reports no condition (R156). -/
theorem err_of_exec_rec2rec {a b : RecFormat} {v : Nat} {s t : State} (h : exec (.rec2rec a b v) s = .next t) :
    t.err = 0#2 := by
  obtain ⟨-, ⟨_, -, rfl⟩ | ⟨hraise, -⟩ | ⟨hraise, -⟩⟩ := exec_next h
  · rfl
  · cases hraise
  · cases hraise

end Sys2Proof.Machine
end

section
/-! CERTIFICATES. The statements of 60_exceptions.md. -/

namespace Sys2Proof.Machine

/-- Settles O21: the patterns of R61 that are invalid are those with one of R173's three causes. -/
theorem rec2fnInvalidEncodingCauses : Obligations.Rec2fnInvalidEncodingCauses := by
  rintro f strict r s _ _ hf hr rfl rfl
  obtain ⟨t, hexec, hinvalid, -⟩ := exec_rec2fn_err_iff strict s hf hr
  refine ⟨t, hexec, ?_⟩
  rw [hinvalid, RecFormat.InvalidPattern, RecFormat.NormalTag, and_assoc]

/-- Settles O22: the patterns of R61 that are lossy are those with R174's cause, and REC2REC reports nothing at all. -/
theorem rec2fnLossyConversionCause : Obligations.Rec2fnLossyConversionCause := by
  refine ⟨?_, fun a b v s t hexec => ?_⟩
  · rintro f strict r s _ _ hf hr rfl rfl
    obtain ⟨t, hexec, -, hlossy⟩ := exec_rec2fn_err_iff strict s hf hr
    refine ⟨t, hexec, ?_⟩
    rw [hlossy, RecFormat.LossyPattern, RecFormat.NormalTag, and_assoc, f.toRecodedFormat_s]
  · rw [err_of_exec_rec2rec hexec]
    decide

/-- Settles O23: an evaluation that does not deliver raises one of the two codes, and raising is all it does. -/
theorem raisedConditionLeavesDataFree : Obligations.RaisedConditionLeavesDataFree := by
  intro f strict r s t hexec herr
  obtain ⟨-, ⟨v, -, rfl⟩ | ⟨-, rfl⟩ | ⟨-, rfl⟩⟩ := exec_next hexec
  · exact absurd (s.deliver_err v) herr
  · exact ⟨.inl rfl, rfl⟩
  · exact ⟨.inr rfl, rfl⟩

/-- Settles O24: below the band the pattern is invalid, at its lowest exponent it is lossy. -/
theorem rec2fnBandTestComesFirst : Obligations.Rec2fnBandTestComesFirst := by
  rintro f strict r s _ hf hr rfl htag
  rw [← f.toRecodedFormat_minSubnormalExponent]
  refine ⟨fun hbelow => ?_, fun hlowest => ?_⟩
  · exact ⟨_, exec_rec2fn_of_invalidPattern s hf hr (.inr (.inl ⟨htag, hbelow⟩)), rfl⟩
  · exact ⟨_, exec_rec2fn_of_lossyPattern strict s hf hr (f.lossyPattern_of_lowestExponent hf htag hlowest), rfl⟩

end Sys2Proof.Machine
end
